-- ==== Sys2Proof/Word.lean ====
section
/-! DEFINITION. The words the block moves: the 8-bit encoded byte and carried number (R7, R22, R24), the 24-bit command
word (R54) and its 3-bit and 2-bit fields, and byte strings (R27). Every one is unsigned (R11), bit 0 is the least
significant bit (R9). -/

namespace Sys2Proof

/-- An EncodedByte (R22), or a carried number (R24): 8 bits. -/
abbrev Byte := BitVec 8

/-- A command word: 24 bits (R54). -/
abbrev CmdWord := BitVec 24

/-- The OP field of a command word: 3 bits (R54, R55). -/
abbrev OpCode := BitVec 3

/-- The TAG field of a command word and of the result bus: 2 bits (R54, R56). -/
abbrev Tag := BitVec 2

/-- A byte string, first character first (R27, R32). -/
abbrev Text := List Byte

end Sys2Proof
end

