-- ==== Sys2Proof/Syntax.lean ====
section
/-! DEFINITION. What a host can present to the block, and the instructions: one constructor for every row of
spec/opcode_table.json. -/

namespace Sys2Proof

/-- What a host presents to the block. `word` is a command word (R53, R54). `byte` is a bare encoded byte, answered by
the source's "conversion from the raw byte to the semantic variant" (R53); that it may be presented on its own is a
DESIGN CHOICE (notes/assumptions/1.md). -/
inductive Input where
  | byte (x : Byte)
  | word (w : CmdWord)
deriving DecidableEq, Repr

/-- The rows of the opcode table. The three byte formats (R45, R46, R47) carry their number field at its own width; the
bits written `x` in their patterns are read by nothing (R51) and so are no operand. The five commands (R55) carry the
fields they read, and only those (R57). TAG is carried as it stands, 11 included: the command itself raises
Fault(RESERVED_TAG) on it (R74, R82, R85; notes/assumptions/3.md). -/
inductive Instr where
  | parameter (num : BitVec 4)
  | session (num : BitVec 3)
  | handle (num : BitVec 3)
  | dec (din : Byte)
  | enc (tag : Tag) (num : Byte)
  | rnd (tag : Tag) (num : Byte)
  | chkb (din : Byte)
  | chkv (tag : Tag) (num : Byte)
deriving DecidableEq, Repr

/-- The fault codes of the command interface (R94). -/
inductive FaultCode where
  | reservedBits
  | reservedOp
  | reservedTag
deriving DecidableEq, Repr

end Sys2Proof
end

