-- ==== Sys2Proof/WellFormed.lean ====
section
/-! DEFINITION. Which instructions are well formed: those whose words are not reserved (R58). The widths of all operands
are in the types of Instr, so the one thing left to check is the reserved variant tag. -/

namespace Sys2Proof

/-- `TAG = 11` is reserved where an operation reads TAG (R56, R58): the one reserved value of an operand. -/
def tagIsReserved (tag : Tag) : Bool := tag == 0b11#2

/-- Not a reserved word (R58), that is, an instruction that has an assembler spelling if it is a command (R62). An
instruction that is not well formed still decodes, encodes and runs: it delivers Fault(RESERVED_TAG) (R94). -/
def Instr.wellFormed : Instr → Bool
  | .parameter _ => true
  | .session _ => true
  | .handle _ => true
  | .dec _ => true
  | .enc tag _ => !tagIsReserved tag
  | .rnd tag _ => !tagIsReserved tag
  | .chkb _ => true
  | .chkv tag _ => !tagIsReserved tag

end Sys2Proof
end

