-- ==== Sys2Proof/Decode.lean ====
section
/-! DEFINITION. From bits to instructions and back: the byte formats (R44 to R52), the command word (R53 to R60), the
assembly of words (R63), the transport of inputs as bytes (R32), and the opcode table as a list of masks and patterns. -/

namespace Sys2Proof

/-! ### The fields of a command word (R54) -/

/-- RSV, bits 23..21. -/
def cmdRSV (w : CmdWord) : BitVec 3 := w.extractLsb' 21 3
/-- OP, bits 20..18. -/
def cmdOP (w : CmdWord) : OpCode := w.extractLsb' 18 3
/-- TAG, bits 17..16. -/
def cmdTAG (w : CmdWord) : Tag := w.extractLsb' 16 2
/-- NUM, bits 15..8. -/
def cmdNUM (w : CmdWord) : Byte := w.extractLsb' 8 8
/-- DIN, bits 7..0. -/
def cmdDIN (w : CmdWord) : Byte := w.extractLsb' 0 8

/-! ### The operation codes (R55) -/

def opDEC : OpCode := 0b000#3
def opENC : OpCode := 0b001#3
def opRND : OpCode := 0b010#3
def opCHKB : OpCode := 0b011#3
def opCHKV : OpCode := 0b100#3

/-! ### The opcode table -/

/-- One row of spec/opcode_table.json: a width, and the words `w` of that width with `w &&& mask = pattern`. -/
structure OpcodeRow where
  mnemonic : String
  width : Nat
  mask : Nat
  pattern : Nat
deriving DecidableEq, Repr

/-- spec/opcode_table.json, row by row (R45, R46, R47, R67, R74, R82, R84, R85). -/
def opcodeTable : List OpcodeRow :=
  [ ⟨"Parameter", 8, 0x01, 0x01⟩,
    ⟨"Session", 8, 0x21, 0x20⟩,
    ⟨"Handle", 8, 0x21, 0x00⟩,
    ⟨"DEC", 24, 0xFC0000, 0x000000⟩,
    ⟨"ENC", 24, 0xFC0000, 0x040000⟩,
    ⟨"RND", 24, 0xFC0000, 0x080000⟩,
    ⟨"CHKB", 24, 0xFC0000, 0x0C0000⟩,
    ⟨"CHKV", 24, 0xFC0000, 0x100000⟩ ]

/-- How many bits an input has: a byte 8 (R52), a command word 24 (R54). -/
def Input.width : Input → Nat
  | .byte _ => 8
  | .word _ => 24

/-- The bits of an input as a number, bit 0 the least significant (R9). -/
def Input.bits : Input → Nat
  | .byte x => x.toNat
  | .word w => w.toNat

/-- The input has the row's width and its fixed bits. -/
def OpcodeRow.covers (r : OpcodeRow) (i : Input) : Bool :=
  r.width == i.width && (i.bits &&& r.mask) == r.pattern

/-- The mnemonics of the rows that cover an input. -/
def mnemonicsOf (i : Input) : List String :=
  (opcodeTable.filter fun r => r.covers i).map OpcodeRow.mnemonic

/-! ### Decoding -/

/-- The format of an encoded byte, by the masks of R45 to R47 in the priority of R48, with its number field (R49).
Total: no byte is illegal or reserved (R51). -/
def decodeByte (x : Byte) : Instr :=
  if x &&& 0x01#8 = 0x01#8 then .parameter (x.extractLsb' 2 4)
  else if x &&& 0x21#8 = 0x20#8 then .session (x.extractLsb' 2 3)
  else .handle (x.extractLsb' 2 3)

/-- The command of a command word (R55), or the name of the fault for which no operation stands: RSV is tested before
OP (R60, R96). A field the operation does not read is dropped (R57). -/
def decodeCommand (w : CmdWord) : Except FaultCode Instr :=
  if cmdRSV w ≠ 0b000#3 then .error .reservedBits
  else if cmdOP w = opDEC then .ok (.dec (cmdDIN w))
  else if cmdOP w = opENC then .ok (.enc (cmdTAG w) (cmdNUM w))
  else if cmdOP w = opRND then .ok (.rnd (cmdTAG w) (cmdNUM w))
  else if cmdOP w = opCHKB then .ok (.chkb (cmdDIN w))
  else if cmdOP w = opCHKV then .ok (.chkv (cmdTAG w) (cmdNUM w))
  else .error .reservedOp

/-- The instruction that an input stands for. -/
def decodeInput : Input → Except FaultCode Instr
  | .byte x => .ok (decodeByte x)
  | .word w => decodeCommand w

/-! ### Encoding -/

/-- R63: `word = (OP << 18) | (TAG << 16) | (NUM << 8) | DIN`, with RSV = 0. -/
def assembleFields (op : OpCode) (tag : Tag) (num din : Byte) : CmdWord :=
  (op.setWidth 24 <<< 18) ||| (tag.setWidth 24 <<< 16) ||| (num.setWidth 24 <<< 8) ||| din.setWidth 24

/-- The input of an instruction. The byte formats place their number as R50 says and write every other bit as 0; a
field a command does not read is assembled as 0 (R63). -/
def encode : Instr → Input
  | .parameter num => .byte (0b00#2 ++ num ++ 0b0#1 ++ 0b1#1)
  | .session num => .byte (0b00#2 ++ 0b1#1 ++ num ++ 0b00#2)
  | .handle num => .byte (0b000#3 ++ num ++ 0b00#2)
  | .dec din => .word (assembleFields opDEC 0#2 0#8 din)
  | .enc tag num => .word (assembleFields opENC tag num 0#8)
  | .rnd tag num => .word (assembleFields opRND tag num 0#8)
  | .chkb din => .word (assembleFields opCHKB 0#2 0#8 din)
  | .chkv tag num => .word (assembleFields opCHKV tag num 0#8)

/-! ### Which bits are read -/

/-- The operations that read DIN only (R57). -/
def opReadsDin (op : OpCode) : Bool := op == opDEC || op == opCHKB

/-- The operations that read TAG and NUM only (R57). -/
def opReadsTag (op : OpCode) : Bool := op == opENC || op == opRND || op == opCHKV

/-- An input with the bits that nothing reads set to 0. Of a byte these are bits 1, 6 and 7 (R51). Of a command word
whose operation reads DIN they are TAG and NUM, and of one whose operation reads TAG and NUM they are DIN (R57). A word
without an operation stays as it is. -/
def clearUnread : Input → Input
  | .byte x => .byte (x &&& 0x3D#8)
  | .word w =>
    if cmdRSV w ≠ 0b000#3 then .word w
    else if opReadsDin (cmdOP w) then .word (w &&& 0xFC00FF#24)
    else if opReadsTag (cmdOP w) then .word (w &&& 0xFFFF00#24)
    else .word w

/-- The fault that a reserved command word delivers (R58, R94), in the priority of R96; none for a word that is not
reserved. -/
def reservedFault (w : CmdWord) : Option FaultCode :=
  if cmdRSV w ≠ 0b000#3 then some .reservedBits
  else if 0b101#3 ≤ cmdOP w then some .reservedOp
  else if opReadsTag (cmdOP w) && tagIsReserved (cmdTAG w) then some .reservedTag
  else none

/-! ### Transport as bytes -/

/-- An input carried as bytes: byte `k` of a command word holds bits 8k+7 .. 8k (R32, D19). -/
def bytesOfInput : Input → List Byte
  | .byte x => [x]
  | .word w => [w.extractLsb' 0 8, w.extractLsb' 8 8, w.extractLsb' 16 8]

/-- The input that bytes carry: one byte is a bare encoded byte, three are a command word, lowest byte first (R32); no
other number of bytes is an input of this block (R52, R54). -/
def inputOfBytes : List Byte → Option Input
  | [x] => some (.byte x)
  | [b0, b1, b2] => some (.word (b2 ++ b1 ++ b0))
  | _ => none

/-- The first `nbits` bits of a number as bytes, lowest first. -/
def bytesOfNat (nbits w : Nat) : List Byte :=
  (List.range ((nbits + 7) / 8)).map fun k => BitVec.ofNat 8 (w >>> (8 * k))

/-- The input whose bits the opcode table numbers as `w`, for the two widths the table has. -/
def tableInput (nbits w : Nat) : Option Input := inputOfBytes (bytesOfNat nbits w)

/-- The instruction the decoder reads from a word numbered as the opcode table numbers it. -/
def decodeTableWord (nbits w : Nat) : Option Instr :=
  match tableInput nbits w with
  | none => none
  | some i => (decodeInput i).toOption

end Sys2Proof
end

