-- ==== Sys2Proof/Config.lean ====
section
/-! DEFINITION. The implementation parameters of R7 and R8. All are fixed: "No parameter is left open: the model takes
no configuration argument". So there is no free value here. -/

namespace Sys2Proof.Config

/-- `BYTE_W` (R7): the width of the encoded byte. -/
def byteW : Nat := 8

/-- `NUM_W` (R7): the storage width of the carried number. -/
def numW : Nat := 8

/-- `CMD_W` (R8, D2): the width of a command word. -/
def cmdW : Nat := 24

/-- `OP_W` (R8, D3): the width of the operation field. -/
def opW : Nat := 3

/-- `TAG_W` (R8, D4): the width of the variant tag. -/
def tagW : Nat := 2

/-- The shortest rendered text, in bytes (R81). -/
abbrev txtMin : Nat := 31

/-- `TXT_MAX` (R8, R81): the longest rendered text, in bytes. -/
abbrev txtMax : Nat := 36

/-- The largest number that fits the Parameter field `P_FIELD`, 4 bits (R7, R88). -/
abbrev paramMax : Nat := 15

/-- The largest number that fits the Session and Handle fields `S_FIELD`, `H_FIELD`, 3 bits (R7, R88). -/
abbrev shortMax : Nat := 7

end Sys2Proof.Config
end

