-- ==== Sys2Proof/Machine/State.lean ====
section
/-! DEFINITION. The value types the block moves (R22 to R27), the result bus (R61), and the state. The block itself holds
no state (R14, R29); State is the hosts' side of its interface: the commands they have issued and the results they were
given (notes/assumptions/2.md). -/

namespace Sys2Proof.Machine

/-- R23: "a closed tagged union with exactly three variants". -/
inductive Variant where
  | parameter
  | session
  | handle
deriving DecidableEq, Repr

/-- R24: a variant and an 8-bit unsigned number. Equality (R26, D12) is structural. -/
structure ArgumentNumber where
  variant : Variant
  num : Byte
deriving DecidableEq, Repr

/-- R27: every command delivers exactly one result, of one of these kinds. -/
inductive Result where
  | value (a : ArgumentNumber)
  | byte (b : Byte)
  | text (t : Text)
  | bool (ok : Bool)
  | fault (code : FaultCode)
deriving DecidableEq, Repr

/-- The result bus (R61), one field per output. -/
structure Bus where
  rk : BitVec 3
  rtag : Tag
  rnum : Byte
  rbyte : Byte
  rok : BitVec 1
  rlen : BitVec 6
  rtxt : Vector Byte 36
  rfc : BitVec 2
deriving DecidableEq, Repr

/-- An input together with the host that issued it (R28). The number is the model's own: "The hosts have no identifiers
visible to the block" (R105), and no meaning reads it (notes/assumptions/6.md). -/
structure Issue where
  host : Nat
  input : Input
deriving DecidableEq, Repr

/-- The hosts' side of the interface. The block holds no state (R14): no register (R16), no program counter (R17), no
flag (R18), no control register (R19), no memory (R30).
- `pending`: what the hosts are still to issue, in the order in which they issue it, however they interleave (R17, R39).
- `served`: what they have issued and the codec has answered, in issue order ("the host holds the command word", R94).
- `trace`: the results, one per command, in issue order; it keeps every fault (R99, D17). -/
structure State where
  pending : List Issue
  served : List Issue
  trace : List Result
deriving DecidableEq, Repr

/-- Reset has no effect on the block (R108), and nothing needs initialising (R111). A run starts from "an empty result
trace" (95_test_vectors.md §3) with nothing to issue (DESIGN CHOICE, notes/assumptions/2.md). -/
def State.reset : State := { pending := [], served := [], trace := [] }

/-- Why the model stops. The block itself never stops: its faults are results (R94, R98), that is, next states. -/
inductive Fault where
  /-- Raised by `step` alone, when no host has a command to issue: no agent but the host starts a step (R28).
  Safe (notes/assumptions/4.md). -/
  | noCommand
  /-- Raised by `State.readBus` alone, when a host reads a result that no command of its own produced (R109, U6).
  Safe (notes/assumptions/7.md). -/
  | noResult
deriving DecidableEq, Repr

/-- Why the model has no meaning for an instruction. -/
inductive Refusal where
  /-- Raised by `exec` alone, for an instruction that has no meaning yet. No arm of `exec` raises it: every row of the
  opcode table has its meaning. Safe. -/
  | notModelled (mnemonic : String)
deriving DecidableEq, Repr

end Sys2Proof.Machine
end

