-- ==== Sys2Proof/Machine/Flags.lean ====
section
/-! DEFINITION. The flag bits. The block holds no flags or condition codes, and no command writes one (R18). The two flag
bits the source names are bits of the encoded byte (R44, R52). -/

namespace Sys2Proof.Machine

/-- `is_parameter`, bit 0 of an encoded byte (R44). -/
def isParameter (x : Byte) : Bool := x.getLsbD 0

/-- `is_session`, bit 5 of an encoded byte: a flag only where bit 0 is 0, else bit 3 of a Parameter number (R44). -/
def isSession (x : Byte) : Bool := x.getLsbD 5

end Sys2Proof.Machine
end

