-- ==== Sys2Proof/Machine/Operands.lean ====
section
/-! DEFINITION. The operand forms: the variant tag (R56), the value named by TAG and NUM (R60), and the two number fields
of an encoded byte (R49). -/

namespace Sys2Proof.Machine

/-- `variantOf` (R56, R60): defined for every tag but 11. -/
def variantOf (t : Tag) : Option Variant :=
  if t = 0b00#2 then some .handle
  else if t = 0b01#2 then some .parameter
  else if t = 0b10#2 then some .session
  else none

/-- The code of a variant on the result bus (R56, R61). -/
def tagOf : Variant → Tag
  | .handle => 0b00#2
  | .parameter => 0b01#2
  | .session => 0b10#2

/-- The value that TAG and NUM name, where TAG names a variant (R60); the number is taken as it stands (R25). -/
def valueOperand (tag : Tag) (num : Byte) : Option ArgumentNumber :=
  (variantOf tag).map fun v => ⟨v, num⟩

/-- The Parameter field, `zext_8(x[5:2])` (R10, R49). -/
def paramField (x : Byte) : Byte := (x.extractLsb' 2 4).setWidth 8

/-- The Session and Handle field, `zext_8(x[4:2])` (R10, R49). -/
def shortField (x : Byte) : Byte := (x.extractLsb' 2 3).setWidth 8

end Sys2Proof.Machine
end

