-- ==== Sys2Proof/Machine/Text.lean ====
section
/-! DEFINITION. ASCII text as byte strings: literals, decimal digits (R80) and hexadecimal digits (R65). -/

namespace Sys2Proof.Machine

/-- A string literal as ASCII bytes, one byte per character (R12, R81). -/
def ascii (s : String) : Text := s.toList.map fun c => BitVec.ofNat 8 c.toNat

/-- The ASCII code of a decimal digit, 0x30 to 0x39 (R80). -/
def digit (d : Nat) : Byte := BitVec.ofNat 8 (0x30 + d)

/-- `dec(n)` (R80): the whole number in decimal digits, no leading zeros, no sign, no padding. -/
def decimal (n : Byte) : Text :=
  if n.toNat < 10 then [digit n.toNat]
  else if n.toNat < 100 then [digit (n.toNat / 10), digit (n.toNat % 10)]
  else [digit (n.toNat / 100), digit (n.toNat / 10 % 10), digit (n.toNat % 10)]

/-- The ASCII code of an upper-case hexadecimal digit (R65). -/
def hexDigit (d : BitVec 4) : Byte :=
  if d.toNat < 10 then BitVec.ofNat 8 (0x30 + d.toNat) else BitVec.ofNat 8 (0x41 + (d.toNat - 10))

/-- `0x%02X` (R65). -/
def hex2 (b : Byte) : Text :=
  ascii "0x" ++ [hexDigit (b.extractLsb' 4 4), hexDigit (b.extractLsb' 0 4)]

/-- `0x%06X` (R65). -/
def hex6 (w : CmdWord) : Text :=
  ascii "0x" ++
    [hexDigit (w.extractLsb' 20 4), hexDigit (w.extractLsb' 16 4), hexDigit (w.extractLsb' 12 4),
     hexDigit (w.extractLsb' 8 4), hexDigit (w.extractLsb' 4 4), hexDigit (w.extractLsb' 0 4)]

end Sys2Proof.Machine
end

