-- ==== Sys2Proof/Machine/Ops.lean ====
section
/-! DEFINITION. The shared operations: the pure functions of the codec (R66, R73, R79) and its two checks (R84, R85), and
what a step does to the hosts' side of the interface: issuing a command, delivering its result, and delivering a fault. -/

namespace Sys2Proof.Machine

/-! ### The codec -/

/-- `decode` (R66): bit 0 is tested first, then bit 5; total. -/
def codecDecode (x : Byte) : ArgumentNumber :=
  if isParameter x then ⟨.parameter, paramField x⟩
  else if isSession x then ⟨.session, shortField x⟩
  else ⟨.handle, shortField x⟩

/-- `encode` (R73): total; a number wider than its field keeps its low bits (R76). -/
def codecEncode (a : ArgumentNumber) : Byte :=
  match a.variant with
  | .parameter => 0x01#8 ||| ((a.num &&& 0x0F#8) <<< 2)
  | .session => 0x20#8 ||| ((a.num &&& 0x07#8) <<< 2)
  | .handle => (a.num &&& 0x07#8) <<< 2

/-- The fixed phrase before the number, its final space included (R79). -/
def phrase : Variant → Text
  | .parameter => ascii "associated with parameter number "
  | .session => ascii "associated with session number "
  | .handle => ascii "associated with handle number "

/-- `render` (R79): the phrase and the whole carried number, not truncated (R80). -/
def codecRender (a : ArgumentNumber) : Text := phrase a.variant ++ decimal a.num

/-- CHKB's check (R84): is the byte canonical? -/
def canonicalCheck (x : Byte) : Bool := codecEncode (codecDecode x) == x

/-- CHKV's check (R85): does the value survive encoding? Equality as in R26. -/
def roundTripCheck (a : ArgumentNumber) : Bool := codecDecode (codecEncode a) == a

/-! ### The interface -/

/-- A host has one more input to issue, behind all that the hosts are to issue before it (R17, R53). -/
def State.enqueue (c : Issue) (s : State) : State := { s with pending := s.pending ++ [c] }

/-- A host issues the command at the head of the order; it is answered in the same step (R35, R114). -/
def State.issueNext (c : Issue) (rest : List Issue) (s : State) : State :=
  { s with pending := rest, served := s.served ++ [c] }

/-- The result of the command being answered goes to the trace (`result <- r`, R13). Nothing else changes (R36). -/
def State.deliver (r : Result) (s : State) : State := { s with trace := s.trace ++ [r] }

/-- Taking a fault (`raise Fault(code)`, R13): it delivers `Fault(code)` and no other result (R94). It saves nothing,
changes no mode and transfers no control (R95, R98), and there is no return from it: the next command is served
normally (R99). -/
def takeFault (code : FaultCode) (s : State) : State := s.deliver (.fault code)

/-- A command that reads TAG and NUM (R57): Fault(RESERVED_TAG) where TAG is 11, else the result `f` gives for the value
they name (R60). -/
def withValue (tag : Tag) (num : Byte) (f : ArgumentNumber → Result) (s : State) : State :=
  match valueOperand tag num with
  | none => takeFault .reservedTag s
  | some a => s.deliver (f a)

end Sys2Proof.Machine
end

