-- ==== Sys2Proof/Machine/ByteFormats.lean ====
section
/-! DEFINITION. The meanings of the three byte formats: a bare encoded byte is answered by its decoded value (R53, R66;
notes/assumptions/1.md), whose number is the field zero-extended to 8 bits (R49). -/

namespace Sys2Proof.Machine

/-- Format P (R45): `Parameter(extract_bits(byte, 2..=5))` (R66 step 1). -/
def execParameter (num : BitVec 4) (s : State) : Host.Outcome State Fault Refusal :=
  .next (s.deliver (.value ⟨.parameter, num.setWidth 8⟩))

/-- Format S (R46): `Session(extract_bits(byte, 2..=4))` (R66 step 2). -/
def execSession (num : BitVec 3) (s : State) : Host.Outcome State Fault Refusal :=
  .next (s.deliver (.value ⟨.session, num.setWidth 8⟩))

/-- Format H (R47): `Handle(extract_bits(byte, 2..=4))` (R66 step 3). -/
def execHandle (num : BitVec 3) (s : State) : Host.Outcome State Fault Refusal :=
  .next (s.deliver (.value ⟨.handle, num.setWidth 8⟩))

end Sys2Proof.Machine
end

