-- ==== Sys2Proof/Machine/Convert.lean ====
section
/-! DEFINITION. The meanings of DEC (R67), ENC (R74) and RND (R82). -/

namespace Sys2Proof.Machine

/-- DEC (R67): `result <- Value(decode(cmd.DIN))`. -/
def execDec (din : Byte) (s : State) : Host.Outcome State Fault Refusal :=
  .next (s.deliver (.value (codecDecode din)))

/-- ENC (R74): `result <- Byte(encode((variantOf(cmd.TAG), cmd.NUM)))`; Fault(RESERVED_TAG) when TAG = 11. -/
def execEnc (tag : Tag) (num : Byte) (s : State) : Host.Outcome State Fault Refusal :=
  .next (withValue tag num (fun a => .byte (codecEncode a)) s)

/-- RND (R82): `result <- Text(render((variantOf(cmd.TAG), cmd.NUM)))`; Fault(RESERVED_TAG) when TAG = 11. -/
def execRnd (tag : Tag) (num : Byte) (s : State) : Host.Outcome State Fault Refusal :=
  .next (withValue tag num (fun a => .text (codecRender a)) s)

end Sys2Proof.Machine
end

