-- ==== Sys2Proof/Machine/Validate.lean ====
section
/-! DEFINITION. The meanings of the round-trip validator's checks, CHKB (R84) and CHKV (R85). -/

namespace Sys2Proof.Machine

/-- CHKB (R84): `result <- Bool(encode(decode(cmd.DIN)) == cmd.DIN)`. -/
def execChkb (din : Byte) (s : State) : Host.Outcome State Fault Refusal :=
  .next (s.deliver (.bool (canonicalCheck din)))

/-- CHKV (R85): `result <- Bool(decode(encode(v)) == v)`; Fault(RESERVED_TAG) when TAG = 11. -/
def execChkv (tag : Tag) (num : Byte) (s : State) : Host.Outcome State Fault Refusal :=
  .next (withValue tag num (fun a => .bool (roundTripCheck a)) s)

end Sys2Proof.Machine
end

