-- ==== Sys2Proof/Machine/Dispatch.lean ====
section
/-! DEFINITION. Which meaning runs for which instruction: one arm per constructor of Instr. -/

namespace Sys2Proof.Machine

/-- Runs an instruction: its result is delivered, and nothing else changes (R36). -/
def exec (i : Instr) (s : State) : Host.Outcome State Fault Refusal :=
  match i with
  | .parameter num => Sys2Proof.Machine.execParameter num s
  | .session num => Sys2Proof.Machine.execSession num s
  | .handle num => Sys2Proof.Machine.execHandle num s
  | .dec din => Sys2Proof.Machine.execDec din s
  | .enc tag num => Sys2Proof.Machine.execEnc tag num s
  | .rnd tag num => Sys2Proof.Machine.execRnd tag num s
  | .chkb din => Sys2Proof.Machine.execChkb din s
  | .chkv tag num => Sys2Proof.Machine.execChkv tag num s

end Sys2Proof.Machine
end

