-- ==== Sys2Proof/Machine/Step.lean ====
section
/-! DEFINITION. One step: a host issues the next command, and the codec answers it in the same step (R28, R35, R114). -/

namespace Sys2Proof.Machine

/-- Issuing the next command moves it from `pending` to `served`; then the instruction it decodes to is run, or the fault
of a word without an operation is delivered (R60). With nothing to issue there is no step to take (R28;
notes/assumptions/4.md). -/
def step (s : State) : Host.Outcome State Fault Refusal :=
  match s.pending with
  | [] => .fault .noCommand
  | c :: rest =>
    match decodeInput c.input with
    | .error code => .next (takeFault code (s.issueNext c rest))
    | .ok i => exec i (s.issueNext c rest)

/-- Host 0 is to issue the input whose bits the opcode table numbers as `w`, ahead of everything pending, so that the
very next step answers it. The block fetches no instructions: hosts issue them (R17; notes/assumptions/5.md). A width that no
row of the table has places nothing. -/
def State.withFetchWord (s : State) (nbits w : Nat) : State :=
  match tableInput nbits w with
  | none => s
  | some i => { s with pending := ⟨0, i⟩ :: s.pending }

end Sys2Proof.Machine
end

