-- ==== Sys2Proof/Machine/Assembler.lean ====
section
/-! DEFINITION. The assembler syntax (R62), assembly (R63) and disassembly (R65), on ASCII text. "One command per line". -/

namespace Sys2Proof.Machine

/-- What the assembler refuses (R62): "a value outside 0..255, an unknown mnemonic and an unknown variant letter", and
what the syntax of R62 does not have: another number of operands or another literal. -/
inductive AsmError where
  | unknownMnemonic
  | unknownVariant
  | valueOutOfRange
  | badLiteral
  | badOperands
deriving DecidableEq, Repr

/-- A line is a sequence of words and commas. -/
inductive Token where
  | word (t : Text)
  | comma
deriving DecidableEq, Repr

/-- The characters between words that mean nothing else: space, tab and carriage return (DESIGN CHOICE,
notes/assumptions/8.md). -/
def isBlank (b : Byte) : Bool := b == 0x20#8 || b == 0x09#8 || b == 0x0D#8

/-- A word that has ended, before the tokens that follow it. -/
def endWord (acc : Text) (rest : List Token) : List Token :=
  if acc.isEmpty then rest else .word acc :: rest

/-- The tokens of a line, with the word read so far. `;` starts a comment that runs to the end of the line (R62). -/
def tokensFrom (acc : Text) : Text → List Token
  | [] => endWord acc []
  | b :: rest =>
    if b = 0x3B#8 then endWord acc []
    else if isBlank b then endWord acc (tokensFrom [] rest)
    else if b = 0x2C#8 then endWord acc (.comma :: tokensFrom [] rest)
    else tokensFrom (acc ++ [b]) rest

/-- The tokens of a line. -/
def tokens (line : Text) : List Token := tokensFrom [] line

/-- The value of a digit, hexadecimal ones in either case (DESIGN CHOICE, notes/assumptions/10.md). -/
def digitValue (b : Byte) : Option Nat :=
  if 0x30 ≤ b.toNat ∧ b.toNat ≤ 0x39 then some (b.toNat - 0x30)
  else if 0x41 ≤ b.toNat ∧ b.toNat ≤ 0x46 then some (b.toNat - 0x41 + 10)
  else if 0x61 ≤ b.toNat ∧ b.toNat ≤ 0x66 then some (b.toNat - 0x61 + 10)
  else none

/-- The number that digits stand for, after `acc`; none where a character is no digit of the base. -/
def readDigits (base acc : Nat) : Text → Option Nat
  | [] => some acc
  | b :: rest =>
    match digitValue b with
    | none => none
    | some d => if d < base then readDigits base (acc * base + d) rest else none

/-- One digit or more. -/
def readNumber (base : Nat) (t : Text) : Option Nat :=
  if t.isEmpty then none else readDigits base 0 t

/-- A literal (R62): decimal, `0x` hexadecimal or `0b` binary. -/
def literalValue : Text → Option Nat
  | b0 :: b1 :: ds =>
    if b0 = 0x30#8 ∧ b1 = 0x78#8 then readNumber 16 ds
    else if b0 = 0x30#8 ∧ b1 = 0x62#8 then readNumber 2 ds
    else readNumber 10 (b0 :: b1 :: ds)
  | t => readNumber 10 t

/-- `<byte>` and `<num>`: a literal of value 0..255 (R62). -/
def byteOperand (t : Text) : Except AsmError Byte :=
  match literalValue t with
  | none => .error .badLiteral
  | some n => if n ≤ 255 then .ok (BitVec.ofNat 8 n) else .error .valueOutOfRange

/-- The letter of a variant (R62). -/
def variantLetter : Variant → Text
  | .parameter => ascii "P"
  | .session => ascii "S"
  | .handle => ascii "H"

/-- `<var>` (R62). -/
def variantOperand (t : Text) : Except AsmError Variant :=
  if t = variantLetter .parameter then .ok .parameter
  else if t = variantLetter .session then .ok .session
  else if t = variantLetter .handle then .ok .handle
  else .error .unknownVariant

/-- `DEC <byte>`, `CHKB <byte>`: OP and DIN, the unread fields 0 (R62, R63). -/
def assembleByteCommand (op : OpCode) : List Token → Except AsmError CmdWord
  | [.word t] => (byteOperand t).map fun din => assembleFields op 0#2 0#8 din
  | _ => .error .badOperands

/-- `ENC`, `RND`, `CHKV <var>, <num>`: OP, TAG and NUM, the unread field 0 (R62, R63). The variant is looked at before the
number (DESIGN CHOICE, notes/assumptions/8.md). -/
def assembleValueCommand (op : OpCode) : List Token → Except AsmError CmdWord
  | [.word v, .comma, .word t] =>
    match variantOperand v with
    | .error e => .error e
    | .ok variant => (byteOperand t).map fun num => assembleFields op (tagOf variant) num 0#8
  | _ => .error .badOperands

/-- `.word <word>`: a raw command word, the form in which R65 prints a reserved word and 95_test_vectors.md §3 writes one
(notes/assumptions/9.md). -/
def assembleRaw : List Token → Except AsmError CmdWord
  | [.word t] =>
    match literalValue t with
    | none => .error .badLiteral
    | some n => if n < 2 ^ 24 then .ok (BitVec.ofNat 24 n) else .error .valueOutOfRange
  | _ => .error .badOperands

/-- The command word of a line's tokens; none for a line that holds no command (blank, or a comment alone). -/
def assembleTokens : List Token → Except AsmError (Option CmdWord)
  | [] => .ok none
  | .comma :: _ => .error .badOperands
  | .word m :: operands =>
    if m = ascii "DEC" then (assembleByteCommand opDEC operands).map some
    else if m = ascii "CHKB" then (assembleByteCommand opCHKB operands).map some
    else if m = ascii "ENC" then (assembleValueCommand opENC operands).map some
    else if m = ascii "RND" then (assembleValueCommand opRND operands).map some
    else if m = ascii "CHKV" then (assembleValueCommand opCHKV operands).map some
    else if m = ascii ".word" then (assembleRaw operands).map some
    else .error .unknownMnemonic

/-- The command word of a line (R62, R63). -/
def assembleLine (line : Text) : Except AsmError (Option CmdWord) := assembleTokens (tokens line)

/-- The lines of a source text, with the line read so far: a line ends at 0x0A. -/
def linesFrom (acc : Text) : Text → List Text
  | [] => [acc]
  | b :: rest => if b = 0x0A#8 then acc :: linesFrom [] rest else linesFrom (acc ++ [b]) rest

/-- The command words of lines, in order; the first line refused refuses them all. -/
def assembleLines : List Text → Except AsmError (List CmdWord)
  | [] => .ok []
  | line :: rest =>
    match assembleLine line with
    | .error e => .error e
    | .ok none => assembleLines rest
    | .ok (some w) => (assembleLines rest).map fun ws => w :: ws

/-- The command words of a program, "One command per line" (R62). There are no pseudo-instructions (R64), so every line
gives at most one word. -/
def assembleSource (source : Text) : Except AsmError (List CmdWord) := assembleLines (linesFrom [] source)

/-- `.word 0x%06X` (R65). -/
def spellRaw (w : CmdWord) : Text := ascii ".word " ++ hex6 w

/-- A command that reads DIN, in the syntax of R62 (R65). -/
def spellByteCommand (mnemonic : String) (din : Byte) : Text :=
  ascii mnemonic ++ ascii " " ++ hex2 din

/-- A command that reads TAG and NUM, in the syntax of R62 (R65); `.word` where TAG is reserved. -/
def spellValueCommand (mnemonic : String) (tag : Tag) (num : Byte) (w : CmdWord) : Text :=
  match variantOf tag with
  | none => spellRaw w
  | some v => ascii mnemonic ++ ascii " " ++ variantLetter v ++ ascii ", " ++ hex2 num

/-- Disassembly (R65): a word that is not reserved in the syntax of R62 with the fields the operation reads, a reserved
word as `.word`. -/
def disassemble (w : CmdWord) : Text :=
  match decodeCommand w with
  | .ok (.dec din) => spellByteCommand "DEC" din
  | .ok (.chkb din) => spellByteCommand "CHKB" din
  | .ok (.enc tag num) => spellValueCommand "ENC" tag num w
  | .ok (.rnd tag num) => spellValueCommand "RND" tag num w
  | .ok (.chkv tag num) => spellValueCommand "CHKV" tag num w
  | .ok (.parameter _) => spellRaw w
  | .ok (.session _) => spellRaw w
  | .ok (.handle _) => spellRaw w
  | .error _ => spellRaw w

end Sys2Proof.Machine
end

