-- ==== Sys2Proof/Machine/Bus.lean ====
section
/-! DEFINITION. The result bus (R61) as a view of a result, and what a host reads of its results (R109, R99). Nothing here
is state: the block keeps no copy of a result (R21). -/

namespace Sys2Proof.Machine

/-- The code of a fault (R94): 1, 2 or 3. "Code 0 is never delivered." -/
def codeOf : FaultCode → BitVec 2
  | .reservedBits => 1#2
  | .reservedOp => 2#2
  | .reservedTag => 3#2

/-- The fault of a code; code 0 names none (R94). -/
def faultOfCode (c : BitVec 2) : Option FaultCode :=
  if c = 1#2 then some .reservedBits
  else if c = 2#2 then some .reservedOp
  else if c = 3#2 then some .reservedTag
  else none

/-- Every output 0: "Every output that does not belong to the delivered kind is 0" (R61). -/
def Bus.zero : Bus :=
  { rk := 0, rtag := 0, rnum := 0, rbyte := 0, rok := 0, rlen := 0, rtxt := Vector.replicate 36 0, rfc := 0 }

/-- RTXT[0..35]: the text bytes in reading order; "bytes from index RLEN upward are 0x00" (R61). -/
def padText (t : Text) : Vector Byte 36 :=
  ⟨⟨(t ++ List.replicate 36 0#8).take 36⟩, by simp⟩

/-- The bus that carries a result (R61): RK, and the outputs that belong to the kind. -/
def Result.toBus : Result → Bus
  | .value a => { Bus.zero with rk := 0b000, rtag := tagOf a.variant, rnum := a.num }
  | .byte b => { Bus.zero with rk := 0b001, rbyte := b }
  | .text t => { Bus.zero with rk := 0b010, rlen := BitVec.ofNat 6 t.length, rtxt := padText t }
  | .bool ok => { Bus.zero with rk := 0b011, rok := BitVec.ofBool ok }
  | .fault code => { Bus.zero with rk := 0b111, rfc := codeOf code }

/-- The result that a bus carries; none for a kind, tag or fault code that is never driven (R61, R94). -/
def Bus.toResult (b : Bus) : Option Result :=
  if b.rk = 0b000#3 then (variantOf b.rtag).map fun v => .value ⟨v, b.rnum⟩
  else if b.rk = 0b001#3 then some (.byte b.rbyte)
  else if b.rk = 0b010#3 then some (.text (b.rtxt.toList.take b.rlen.toNat))
  else if b.rk = 0b011#3 then some (.bool (b.rok == 1#1))
  else if b.rk = 0b111#3 then (faultOfCode b.rfc).map .fault
  else none

/-- A host reads the bus: "A host reads the bus only as the answer to a command it issued" (R109). Where the last command
is not its own, or there is none, the read is a fault of the model and never a value (U6; notes/assumptions/7.md). -/
def State.readBus (host : Nat) (s : State) : Except Fault Bus :=
  match s.served.getLast?, s.trace.getLast? with
  | some c, some r => if c.host = host then .ok r.toBus else .error .noResult
  | _, _ => .error .noResult

/-- The results delivered to one host, in issue order (R39, R105). -/
def State.resultsOf (host : Nat) (s : State) : List Result :=
  ((s.served.zip s.trace).filter fun p => p.1.host == host).map Prod.snd

end Sys2Proof.Machine
end

