-- ==== Sys2Proof/Machine/Execute.lean ====
section
/-! DEFINITION. The block as the spec's own pseudocode gives it: a total function from a command word to a result (R60),
with no state argument (R14). `step` does not use it; that every step delivers its value is a statement about the model. -/

namespace Sys2Proof.Machine

/-- `execute(w : 24 bits) : Result` (R60), test by test. -/
def execute (w : CmdWord) : Result :=
  if w.extractLsb' 21 3 ≠ 0b000#3 then .fault .reservedBits
  else
    let op := w.extractLsb' 18 3
    if op = 0b000#3 then .value (codecDecode (w.extractLsb' 0 8))
    else if op = 0b011#3 then .bool (codecEncode (codecDecode (w.extractLsb' 0 8)) == w.extractLsb' 0 8)
    else if op = 0b001#3 ∨ op = 0b010#3 ∨ op = 0b100#3 then
      match variantOf (w.extractLsb' 16 2) with
      | none => .fault .reservedTag
      | some variant =>
        let v : ArgumentNumber := ⟨variant, w.extractLsb' 8 8⟩
        if op = 0b001#3 then .byte (codecEncode v)
        else if op = 0b010#3 then .text (codecRender v)
        else .bool (codecDecode (codecEncode v) == v)
    else .fault .reservedOp

/-- The answer to any input: a command word by R60, a bare encoded byte by `decode` (R66; notes/assumptions/1.md). -/
def answer : Input → Result
  | .byte x => .value (codecDecode x)
  | .word w => execute w

end Sys2Proof.Machine
end

