-- ==== Sys2Proof/Safety.lean ====
section
/-! DEFINITION. The terms that statements about runs use: values that fit, canonical bytes, results the block can deliver,
traces that answer their commands, and runs that succeed. -/

namespace Sys2Proof.Machine

/-- A value fits when its number fits the field of its variant (R88). -/
def ArgumentNumber.fits (a : ArgumentNumber) : Bool :=
  match a.variant with
  | .parameter => decide (a.num.toNat ≤ Config.paramMax)
  | .session => decide (a.num.toNat ≤ Config.shortMax)
  | .handle => decide (a.num.toNat ≤ Config.shortMax)

/-- A canonical byte: bits 1, 6 and 7 clear (R87). -/
def isCanonical (x : Byte) : Bool := x &&& 0xC2#8 == 0#8

/-- What R27, R71, R75 and R81 say of a delivered result: a Value fits, a Byte is canonical, a Text is ASCII of 31 to 36
bytes. -/
def Result.deliverable : Result → Bool
  | .value a => a.fits
  | .byte b => isCanonical b
  | .text t => decide (Config.txtMin ≤ t.length) && decide (t.length ≤ Config.txtMax) &&
      t.all fun b => decide (b.toNat < 128)
  | .bool _ => true
  | .fault _ => true

/-- A result that is a Fault (R27, R94). -/
def Result.isFault : Result → Bool
  | .value _ => false
  | .byte _ => false
  | .text _ => false
  | .bool _ => false
  | .fault _ => true

/-- The trace holds, for every command issued so far, the answer to that command, in issue order (R14, R39). -/
def State.answersItsCommands (s : State) : Prop := s.trace = s.served.map fun c => answer c.input

/-- Every result in the trace is one the block can deliver (R27). -/
def State.deliverableTrace (s : State) : Prop := ∀ r ∈ s.trace, r.deliverable = true

/-- A run succeeds when its trace holds no Fault (R99, D17; 95_test_vectors.md §3). The spec says so of the program of one
host. That a run of several hosts as a whole succeeds when no host received a Fault is a DESIGN CHOICE
(notes/assumptions/13.md); `hostSucceeded` judges each host alone. -/
def State.succeeded (s : State) : Bool := s.trace.all fun r => !r.isFault

/-- One host's program succeeds when the trace of its own results holds no Fault (R99, D17), whatever other hosts received:
P6 of 95_test_vectors.md gives each host a trace of its own. DEDUCED for several hosts (notes/assumptions/13.md). -/
def State.hostSucceeded (host : Nat) (s : State) : Bool := (s.resultsOf host).all fun r => !r.isFault

end Sys2Proof.Machine
end

