-- ==== Sys2Proof/Certificates/Slice0/Obligations.lean ====
section
/-! DEFINITION. The statements for the provers. Each is about the machine and no particular program. "log n" is
notes/assumptions/n.md. Where a rule is marked in spec/ as the spec's own decision (D<n>) or as derived, the statement
says so. -/

open Sys2Proof Sys2Proof.Machine

/-! ### Encoding -/

/-- Words written out from R45 to R47, R54 and R55 decode to the instructions they stand for, and reserved words (R58)
are rejected by name. The layout of the command word is the spec's decision D2, D3, D4. -/
def Obligations.SpecWordsDecodeToTheirInstructions : Prop :=
  decodeInput (.byte 0b00_0101_0_1#8) = .ok (.parameter 5) ∧
  decodeInput (.byte 0b11_1_111_1_0#8) = .ok (.session 7) ∧
  decodeInput (.byte 0b00_0_011_0_0#8) = .ok (.handle 3) ∧
  decodeInput (.word 0b000_000_11_00000000_00010101#24) = .ok (.dec 0x15) ∧
  decodeInput (.word 0b000_001_01_00000101_00000000#24) = .ok (.enc 0b01 5) ∧
  decodeInput (.word 0b000_010_00_00000011_00000000#24) = .ok (.rnd 0b00 3) ∧
  decodeInput (.word 0b000_011_00_00000000_11111111#24) = .ok (.chkb 0xFF) ∧
  decodeInput (.word 0b000_100_10_00001001_00000000#24) = .ok (.chkv 0b10 9) ∧
  decodeInput (.word 0b000_101_00_00000000_00000000#24) = .error .reservedOp ∧
  decodeInput (.word 0b001_000_00_00000000_00010101#24) = .error .reservedBits

/-- Decoding an encoded instruction gives it back, for every instruction and every value of its operands (R45 to R47,
R50, R54, R55, R63). The command word's layout is the spec's decision D2, D3. -/
def Obligations.EncodedInstructionDecodesBack : Prop :=
  ∀ i : Instr, decodeInput (encode i) = .ok i

/-- Encoding a decoded input gives the input back with the bits that nothing reads cleared, and no other bit changed
(R51, R57, R65). What a command reads is the spec's decision D9. -/
def Obligations.DecodedInputEncodesBackCleared : Prop :=
  ∀ (x : Input) (i : Instr), decodeInput x = .ok i → encode i = clearUnread x

/-- R45, R46, R47: which bytes have which format, by mask and match; where the number lies; that each `x` bit is
ignored on decode and written 0 on encode; and that bit 5 takes no part in selecting format P. -/
def Obligations.ByteFormatsFollowTheirMasks : Prop :=
  (∀ x : Byte, x &&& 0x01#8 = 0x01#8 → decodeInput (.byte x) = .ok (.parameter (x.extractLsb' 2 4))) ∧
  (∀ x : Byte, x &&& 0x21#8 = 0x20#8 → decodeInput (.byte x) = .ok (.session (x.extractLsb' 2 3))) ∧
  (∀ x : Byte, x &&& 0x21#8 = 0x00#8 → decodeInput (.byte x) = .ok (.handle (x.extractLsb' 2 3))) ∧
  (∀ n : BitVec 4, encode (.parameter n) = .byte (n.setWidth 8 * 4#8 + 0x01#8)) ∧
  (∀ n : BitVec 3, encode (.session n) = .byte (n.setWidth 8 * 4#8 + 0x20#8)) ∧
  (∀ n : BitVec 3, encode (.handle n) = .byte (n.setWidth 8 * 4#8))

/-- R48: every byte matches exactly one row of the three formats, chosen by bit 0 first and then bit 5; format P holds 128
byte values, S 64 and H 64. The counts are an inference the spec marks as derived. -/
def Obligations.EveryByteHasOneFormatByPriority : Prop :=
  (∀ x : Byte, mnemonicsOf (.byte x) =
    if x.getLsbD 0 then ["Parameter"] else if x.getLsbD 5 then ["Session"] else ["Handle"]) ∧
  ((List.range 256).countP fun k => mnemonicsOf (.byte (BitVec.ofNat 8 k)) == ["Parameter"]) = 128 ∧
  ((List.range 256).countP fun k => mnemonicsOf (.byte (BitVec.ofNat 8 k)) == ["Session"]) = 64 ∧
  ((List.range 256).countP fun k => mnemonicsOf (.byte (BitVec.ofNat 8 k)) == ["Handle"]) = 64

/-- R51: no byte is illegal or reserved: every byte decodes to exactly one of the three formats. Bits 1, 6 and 7 are never
read on decode, by the format or by DEC, and they are zero in the byte that encodes what was decoded. -/
def Obligations.NoByteIsIllegalAndUnusedBitsAreUnread : Prop :=
  ∀ x : Byte, ∃ i : Instr, ∃ y : Byte,
    ((∃ n, i = .parameter n) ∨ (∃ n, i = .session n) ∨ (∃ n, i = .handle n)) ∧
    decodeInput (.byte x) = .ok i ∧ decodeInput (.byte (x &&& 0x3D#8)) = .ok i ∧
    encode i = .byte y ∧ y.getLsbD 1 = false ∧ y.getLsbD 6 = false ∧ y.getLsbD 7 = false ∧
    ∀ s : State, exec (.dec x) s = exec (.dec (x &&& 0x3D#8)) s

/-- R44: what each bit of the encoded byte means on decode, and what encode writes to it. -/
def Obligations.EncodedByteFieldMap : Prop :=
  (∀ (v : Variant) (n : Byte),
    (codecEncode ⟨v, n⟩).getLsbD 0 = (v == .parameter) ∧
    (codecEncode ⟨v, n⟩).getLsbD 1 = false ∧
    (codecEncode ⟨v, n⟩).getLsbD 2 = n.getLsbD 0 ∧
    (codecEncode ⟨v, n⟩).getLsbD 3 = n.getLsbD 1 ∧
    (codecEncode ⟨v, n⟩).getLsbD 4 = n.getLsbD 2 ∧
    (codecEncode ⟨v, n⟩).getLsbD 5 =
      (match v with | .parameter => n.getLsbD 3 | .session => true | .handle => false) ∧
    (codecEncode ⟨v, n⟩).getLsbD 6 = false ∧
    (codecEncode ⟨v, n⟩).getLsbD 7 = false) ∧
  (∀ x : Byte,
    ((codecDecode x).variant = .parameter ↔ x.getLsbD 0 = true) ∧
    ((codecDecode x).variant = .session ↔ x.getLsbD 0 = false ∧ x.getLsbD 5 = true) ∧
    ((codecDecode x).variant = .handle ↔ x.getLsbD 0 = false ∧ x.getLsbD 5 = false) ∧
    (codecDecode x).num.getLsbD 0 = x.getLsbD 2 ∧
    (codecDecode x).num.getLsbD 1 = x.getLsbD 3 ∧
    (codecDecode x).num.getLsbD 2 = x.getLsbD 4 ∧
    (codecDecode x).num.getLsbD 3 = (x.getLsbD 0 && x.getLsbD 5) ∧
    codecDecode x = codecDecode (x &&& 0x3D#8))

/-- Byte k of a command word carried as bytes holds bits 8k+7 .. 8k (R32, decision D19), and an input carried as bytes is
read back as it was; a number of bytes that is neither 1 nor 3 carries no input. R32 speaks of the command word only: that
one byte carries an input is the model's choice (log 1), and so is that any other number of bytes carries none (log 5). -/
def Obligations.InputCarriedAsLittleEndianBytes : Prop :=
  (∀ (w : CmdWord) (k : Nat), k < 3 → (bytesOfInput (.word w))[k]? = some (w.extractLsb' (8 * k) 8)) ∧
  (∀ x : Input, inputOfBytes (bytesOfInput x) = some x) ∧
  (∀ bs : List Byte, bs.length ≠ 1 → bs.length ≠ 3 → inputOfBytes bs = none)

/-! ### What each instruction delivers, and that it changes nothing else -/

/-- A bare encoded byte is answered by the value of its format, with the number field zero-extended to 8 bits (R49, R66).
That a byte may be presented on its own is the model's choice (log 1). -/
def Obligations.ByteFormatsDeliverTheirValue : Prop :=
  ∀ s : State,
    (∀ n : BitVec 4, exec (.parameter n) s =
      .next { s with trace := s.trace ++ [.value ⟨.parameter, BitVec.ofNat 8 n.toNat⟩] }) ∧
    (∀ n : BitVec 3, exec (.session n) s =
      .next { s with trace := s.trace ++ [.value ⟨.session, BitVec.ofNat 8 n.toNat⟩] }) ∧
    (∀ n : BitVec 3, exec (.handle n) s =
      .next { s with trace := s.trace ++ [.value ⟨.handle, BitVec.ofNat 8 n.toNat⟩] })

/-- R66, R68, R69: DEC tests bit 0, then bit 5, and delivers the number of the active field; nothing else changes. -/
def Obligations.DecDeliversTheDecodedValue : Prop :=
  ∀ (x : Byte) (s : State), exec (.dec x) s =
    .next { s with trace := s.trace ++
      [.value (if x.getLsbD 0 then ⟨.parameter, (x >>> 2) &&& 0x0F#8⟩
               else if x.getLsbD 5 then ⟨.session, (x >>> 2) &&& 0x07#8⟩
               else ⟨.handle, (x >>> 2) &&& 0x07#8⟩)] }

/-- R50, R73: ENC starts from a zero byte, sets the flag bits of the variant, and places the low 4 or low 3 bits of the
number from bit 2 on; nothing else changes. -/
def Obligations.EncDeliversTheEncodedByte : Prop :=
  ∀ (n : Byte) (s : State),
    exec (.enc (tagOf .parameter) n) s =
      .next { s with trace := s.trace ++ [.byte (0b00#2 ++ n.extractLsb' 0 4 ++ 0b0#1 ++ 0b1#1)] } ∧
    exec (.enc (tagOf .session) n) s =
      .next { s with trace := s.trace ++ [.byte (0b00#2 ++ 0b1#1 ++ n.extractLsb' 0 3 ++ 0b00#2)] } ∧
    exec (.enc (tagOf .handle) n) s =
      .next { s with trace := s.trace ++ [.byte (0b000#3 ++ n.extractLsb' 0 3 ++ 0b00#2)] }

/-- R79: RND delivers one of three fixed phrases followed by the carried number, with no trailing space, full stop, newline
or zero byte; nothing else changes. How the number is written is the next statement. -/
def Obligations.RndDeliversThePhraseAndTheNumber : Prop :=
  ∀ (n : Byte) (s : State),
    exec (.rnd (tagOf .parameter) n) s =
      .next { s with trace := s.trace ++ [.text (ascii "associated with parameter number " ++ decimal n)] } ∧
    exec (.rnd (tagOf .session) n) s =
      .next { s with trace := s.trace ++ [.text (ascii "associated with session number " ++ decimal n)] } ∧
    exec (.rnd (tagOf .handle) n) s =
      .next { s with trace := s.trace ++ [.text (ascii "associated with handle number " ++ decimal n)] }

/-- R80, R81 (decision D10): the number is written in ASCII digits that stand for it in base 10, without leading zeros, in
1, 2 or 3 digits; so the rendered text has 31 to 36 bytes, and both bounds are met. -/
def Obligations.RenderedNumberIsPlainDecimal : Prop :=
  (∀ n : Byte,
    (∀ b ∈ decimal n, 0x30 ≤ b.toNat ∧ b.toNat ≤ 0x39) ∧
    (decimal n).foldl (fun acc b => acc * 10 + (b.toNat - 0x30)) 0 = n.toNat ∧
    ((decimal n).length = if n.toNat < 10 then 1 else if n.toNat < 100 then 2 else 3) ∧
    ((decimal n).head? = some 0x30#8 → n = 0#8)) ∧
  (∀ a : ArgumentNumber, 31 ≤ (codecRender a).length ∧ (codecRender a).length ≤ 36) ∧
  (codecRender ⟨.handle, 0⟩).length = 31 ∧ (codecRender ⟨.parameter, 255⟩).length = 36

/-- R84 with R87: CHKB delivers whether encode(decode(x)) is x, which is whether bits 1, 6 and 7 of x are clear; nothing
else changes. That the operation exists is the spec's decision D11; R87 is derived. -/
def Obligations.ChkbDeliversWhetherTheByteIsCanonical : Prop :=
  ∀ (x : Byte) (s : State),
    exec (.chkb x) s =
      .next { s with trace := s.trace ++ [.bool (decide (codecEncode (codecDecode x) = x))] } ∧
    (codecEncode (codecDecode x) = x ↔ x &&& 0xC2#8 = 0#8)

/-- R85 with R88: CHKV delivers whether decode(encode(v)) is v, which is whether the number is at most 15 for a Parameter
and at most 7 for a Session or a Handle; nothing else changes. That the operation exists is the spec's decision D11; R88
is derived. -/
def Obligations.ChkvDeliversWhetherTheValueFits : Prop :=
  ∀ (v : Variant) (n : Byte) (s : State),
    exec (.chkv (tagOf v) n) s =
      .next { s with trace := s.trace ++ [.bool (decide (codecDecode (codecEncode ⟨v, n⟩) = ⟨v, n⟩))] } ∧
    (codecDecode (codecEncode ⟨v, n⟩) = ⟨v, n⟩ ↔
      (v = .parameter ∧ n.toNat ≤ 15) ∨ (v ≠ .parameter ∧ n.toNat ≤ 7))

/-- R56, R74, R82, R85, R94 (decisions D4, D7): every tag but 11 names a variant, and ENC, RND and CHKV with TAG = 11
deliver Fault(RESERVED_TAG); nothing else changes. -/
def Obligations.ReservedTagDeliversItsFault : Prop :=
  (∀ t : Tag, t = 0b11#2 ∨ ∃ v : Variant, t = tagOf v) ∧
  ∀ (n : Byte) (s : State),
    exec (.enc 0b11#2 n) s = .next { s with trace := s.trace ++ [.fault .reservedTag] } ∧
    exec (.rnd 0b11#2 n) s = .next { s with trace := s.trace ++ [.fault .reservedTag] } ∧
    exec (.chkv 0b11#2 n) s = .next { s with trace := s.trace ++ [.fault .reservedTag] }

/-- Every instruction completes from every state and delivers exactly one result, which does not depend on the state,
and changes neither the commands to come nor those issued nor a result delivered before. This is the
frame of all eight instructions; the state has no register, flag or memory to change (R14). For the five commands it says
that no command has a side effect (R36). That the three byte formats run as instructions is the model's choice (log 1). -/
def Obligations.EveryInstructionDeliversOneResultAndNothingElse : Prop :=
  ∀ i : Instr, ∃ r : Result,
    ∀ s : State, exec i s = .next { pending := s.pending, served := s.served, trace := s.trace ++ [r] }

/-- R72, R78, R93: no byte, variant or number makes decode, encode, render, CHKB or CHKV fail: each completes with a result
that is no Fault, and DEC's is exactly one of the three variants. -/
def Obligations.NoCodecFunctionFails : Prop :=
  ∀ (x : Byte) (v : Variant) (n : Byte) (s : State),
    (∃ m : Byte,
      exec (.dec x) s = .next { s with trace := s.trace ++ [.value ⟨.parameter, m⟩] } ∨
      exec (.dec x) s = .next { s with trace := s.trace ++ [.value ⟨.session, m⟩] } ∨
      exec (.dec x) s = .next { s with trace := s.trace ++ [.value ⟨.handle, m⟩] }) ∧
    (∃ b, exec (.enc (tagOf v) n) s = .next { s with trace := s.trace ++ [.byte b] }) ∧
    (∃ t, exec (.rnd (tagOf v) n) s = .next { s with trace := s.trace ++ [.text t] }) ∧
    (∃ ok, exec (.chkb x) s = .next { s with trace := s.trace ++ [.bool ok] }) ∧
    (∃ ok, exec (.chkv (tagOf v) n) s = .next { s with trace := s.trace ++ [.bool ok] })

/-! ### Laws of the codec -/

/-- R75: bits 1, 6 and 7 of every encoded byte are 0. -/
def Obligations.EncodedBytesHaveUnusedBitsClear : Prop :=
  ∀ (v : Variant) (n : Byte) (s : State), ∃ b : Byte,
    exec (.enc (tagOf v) n) s = .next { s with trace := s.trace ++ [.byte b] } ∧
    b.getLsbD 1 = false ∧ b.getLsbD 6 = false ∧ b.getLsbD 7 = false

/-- R86 with R113: a host that decodes a byte and encodes the value it was given receives the byte with bits 1, 6 and 7
cleared. R86 is derived. -/
def Obligations.DecThenEncCanonicalises : Prop :=
  ∀ (x : Byte) (s : State), ∃ a : ArgumentNumber,
    exec (.dec x) s = .next { s with trace := s.trace ++ [.value a] } ∧
    ∀ s' : State, exec (.enc (tagOf a.variant) a.num) s' =
      .next { s' with trace := s'.trace ++ [.byte (x &&& 0x3D#8)] }

/-- R76, R89 (decision D5): a host that encodes a value and decodes the byte it was given receives the same variant, and
the number with only its low 4 bits (Parameter) or low 3 bits (Session, Handle). -/
def Obligations.EncThenDecTruncatesTheNumber : Prop :=
  ∀ (v : Variant) (n : Byte) (s : State), ∃ b : Byte,
    exec (.enc (tagOf v) n) s = .next { s with trace := s.trace ++ [.byte b] } ∧
    ∀ s' : State, exec (.dec b) s' =
      .next { s' with trace := s'.trace ++
        [.value ⟨v, n &&& (match v with | .parameter => 0x0F#8 | .session => 0x07#8 | .handle => 0x07#8)⟩] }

/-- R71, R92: DEC delivers a number of at most 15 for a Parameter and at most 7 for a Session or a Handle, on which CHKV
answers true; and CHKB answers true on every byte that ENC delivers. Both rules are derived. -/
def Obligations.DecodedValuesFitAndEncodedBytesAreCanonical : Prop :=
  (∀ (x : Byte) (s : State), ∃ a : ArgumentNumber,
    exec (.dec x) s = .next { s with trace := s.trace ++ [.value a] } ∧
    (a.num.toNat ≤ if a.variant = .parameter then 15 else 7) ∧
    ∀ s' : State, exec (.chkv (tagOf a.variant) a.num) s' = .next { s' with trace := s'.trace ++ [.bool true] }) ∧
  (∀ (v : Variant) (n : Byte) (s : State), ∃ b : Byte,
    exec (.enc (tagOf v) n) s = .next { s with trace := s.trace ++ [.byte b] } ∧
    ∀ s' : State, exec (.chkb b) s' = .next { s' with trace := s'.trace ++ [.bool true] })

/-- R87, R88, R91: decode and encode are inverse bijections between the canonical bytes and the fitting values; the
canonical bytes are exactly those encode produces; there are 32 canonical bytes. The rules are derived. -/
def Obligations.CanonicalBytesAndFittingValuesCorrespond : Prop :=
  (∀ x : Byte, isCanonical x = true → (codecDecode x).fits = true ∧ codecEncode (codecDecode x) = x) ∧
  (∀ a : ArgumentNumber, a.fits = true → isCanonical (codecEncode a) = true ∧ codecDecode (codecEncode a) = a) ∧
  (∀ x : Byte, isCanonical x = true ↔ ∃ a : ArgumentNumber, codecEncode a = x) ∧
  ((List.range 256).countP fun k => isCanonical (BitVec.ofNat 8 k)) = 32

/-! ### The step -/

/-- Where the next input decodes to an instruction, a step is that instruction run in the state in which the input has
moved from `pending` to `served`; where it is a word without an operation, a step delivers the fault that the decoder names
(R28, R60). That an input may be a bare byte is the model's choice (log 1). -/
def Obligations.StepRunsTheDecodedInstruction : Prop :=
  ∀ (s : State) (c : Issue) (rest : List Issue), s.pending = c :: rest →
    (∀ i : Instr, decodeInput c.input = .ok i →
      step s = exec i { s with pending := rest, served := s.served ++ [c] }) ∧
    (∀ code : FaultCode, decodeInput c.input = .error code →
      step s = .next { pending := rest, served := s.served ++ [c], trace := s.trace ++ [.fault code] })

/-- Where no host has anything to issue, there is no step: the machine stops. It is the model's choice (log 4), after "No
agent but the host starts a step" (R28), and the only way a step can stop. -/
def Obligations.StepStopsExactlyWhenNothingIsIssued : Prop :=
  ∀ s : State, (s.pending = [] ∧ step s = .fault .noCommand) ∨ (s.pending ≠ [] ∧ ∃ t : State, step s = .next t)

/-- R60 (decision D8): decoding and running an instruction answers every input as the spec's own algorithm does, and
nothing else changes. R60 is about command words; that a bare byte may be presented is the model's choice (log 1). -/
def Obligations.StepDeliversTheAnswerOfTheAlgorithm : Prop :=
  ∀ (s : State) (c : Issue) (rest : List Issue), s.pending = c :: rest →
    step s = .next { pending := rest, served := s.served ++ [c], trace := s.trace ++ [answer c.input] }

/-- R58, R94, R96 (decisions D7, D8): a step on a command word delivers Fault(RESERVED_BITS) exactly when RSV is not 000,
Fault(RESERVED_OP) exactly when RSV is 000 and OP is 101, 110 or 111, and Fault(RESERVED_TAG) exactly when RSV is 000, OP
is ENC, RND or CHKV and TAG is 11; so no other word faults, and at most one fault is reported. -/
def Obligations.ReservedWordsDeliverTheirFaultByPriority : Prop :=
  ∀ (s : State) (h : Nat) (w : CmdWord) (rest : List Issue), s.pending = ⟨h, .word w⟩ :: rest →
    ∃ r : Result,
      step s = .next { pending := rest, served := s.served ++ [⟨h, .word w⟩], trace := s.trace ++ [r] } ∧
      (r = .fault .reservedBits ↔ w.toNat / 2 ^ 21 ≠ 0) ∧
      (r = .fault .reservedOp ↔ 5 ≤ w.toNat / 2 ^ 18 ∧ w.toNat / 2 ^ 18 ≤ 7) ∧
      (r = .fault .reservedTag ↔
        (w.toNat / 2 ^ 18 = 1 ∨ w.toNat / 2 ^ 18 = 2 ∨ w.toNat / 2 ^ 18 = 4) ∧ w.toNat / 2 ^ 16 % 4 = 3)

/-- R57 (decision D9): a command word and the same word with its unread field changed give the same result: TAG and NUM
for DEC and CHKB, DIN for ENC, RND and CHKV. -/
def Obligations.UnreadFieldsChangeNoResult : Prop :=
  ∀ (s : State) (h : Nat) (rest : List Issue) (op : OpCode) (tag tag' : Tag) (num num' din din' : Byte),
    ((op = opDEC ∨ op = opCHKB) ∧ din' = din) ∨
      ((op = opENC ∨ op = opRND ∨ op = opCHKV) ∧ tag' = tag ∧ num' = num) →
    ∃ r : Result,
      step { s with pending := ⟨h, .word (assembleFields op tag num din)⟩ :: rest } =
        .next { pending := rest, served := s.served ++ [⟨h, .word (assembleFields op tag num din)⟩],
                trace := s.trace ++ [r] } ∧
      step { s with pending := ⟨h, .word (assembleFields op tag' num' din')⟩ :: rest } =
        .next { pending := rest, served := s.served ++ [⟨h, .word (assembleFields op tag' num' din')⟩],
                trace := s.trace ++ [r] }

/-- One function gives the result of an input in every state, whoever issues it. For command words this is R14: every
result is a function of the current command alone and of nothing the block saw before. That a bare byte is an input, answered
likewise, is the model's choice (log 1). -/
def Obligations.ResultIsAFunctionOfTheCommandAlone : Prop :=
  ∃ f : Input → Result, ∀ (s : State) (c : Issue) (rest : List Issue), s.pending = c :: rest →
    step s = .next { pending := rest, served := s.served ++ [c], trace := s.trace ++ [f c.input] }

/-- R99, R108, R111 (decisions D14, D17): a command gives from any state, and after any results, faults among them, the
result that it gives as the first command after reset. That a bare byte is an input is the model's choice (log 1). -/
def Obligations.ResultIsThatOfTheFirstCommandAfterReset : Prop :=
  ∀ (c : Issue) (t : State), step (State.reset.enqueue c) = .next t →
    ∃ r : Result, t.trace = [r] ∧
      ∀ (s : State) (rest : List Issue), s.pending = c :: rest →
        step s = .next { pending := rest, served := s.served ++ [c], trace := s.trace ++ [r] }

/-! ### Invariants and runs -/

/-- Every step keeps the trace the answers, in issue order, to the commands issued so far (R14, R99). The two lists are the model's
own (log 2), and so is the answer to a bare byte (log 1). -/
def Obligations.StepKeepsTheTraceAnswering : Prop :=
  ∀ s s' : State, s.answersItsCommands → step s = .next s' → s'.answersItsCommands

/-- The trace answers the commands issued at reset, where both are empty (95_test_vectors.md §3; log 2). -/
def Obligations.ResetTraceAnswers : Prop := State.reset.answersItsCommands

/-- Every step keeps every result in the trace one that the block can deliver: a Value that fits (R71), a canonical Byte
(R75), an ASCII Text of 31 to 36 bytes (R27, R81), a Bool or a Fault. -/
def Obligations.StepKeepsTheTraceDeliverable : Prop :=
  ∀ s s' : State, s.deliverableTrace → step s = .next s' → s'.deliverableTrace

/-- The trace at reset holds only results that the block can deliver: it holds none (log 2). -/
def Obligations.ResetTraceIsDeliverable : Prop := State.reset.deliverableTrace

/-- R115, R17: a run of n commands ends after n steps, with one answer for each, in issue order, and takes no further
step. R115 is derived. The stop is the model's choice (log 4), and so is that a bare byte is among the inputs
(log 1). -/
def Obligations.RunAnswersEveryCommandAndEnds : Prop :=
  ∀ s : State,
    Host.Core.run Sys2Proof.core s.pending.length s =
      .next { pending := [], served := s.served ++ s.pending,
              trace := s.trace ++ s.pending.map fun c => answer c.input } ∧
    ∀ k : Nat, Host.Core.run Sys2Proof.core (s.pending.length + 1 + k) s = .fault .noCommand

/-- For any hosts issuing inputs in any interleaving, each host receives, in its own issue order, exactly the results that
its inputs give when issued alone. For command words this is R39. That every interleaving is an order of `pending` is the
model's inference (log 6), and that a bare byte is among the inputs is its choice (log 1). -/
def Obligations.InterleavingChangesNoResult : Prop :=
  ∃ alone : Input → Result,
    (∀ c : Issue, step (State.reset.enqueue c) =
      .next { pending := [], served := [c], trace := [alone c.input] }) ∧
    ∀ s : State, s.served.length = s.trace.length →
      ∃ t : State, Host.Core.run Sys2Proof.core s.pending.length s = .next t ∧ t.pending = [] ∧
        ∀ h : Nat, t.resultsOf h =
          s.resultsOf h ++ (s.pending.filter fun c => c.host == h).map fun c => alone c.input

/-- A step keeps as many results as commands issued, which is what `InterleavingChangesNoResult` assumes. The two lists
are the model's own (log 2). -/
def Obligations.StepKeepsOneResultPerCommand : Prop :=
  ∀ s s' : State, s.served.length = s.trace.length → step s = .next s' → s'.served.length = s'.trace.length

/-- Issuing the same input twice gives the same result both times, whatever was issued in between and by whom. For command
words this is R36. That a bare byte is an input is the model's choice (log 1). -/
def Obligations.SameCommandTwiceGivesTheSameResult : Prop :=
  ∀ (s : State) (h h' : Nat) (x : Input) (between rest : List Issue),
    s.pending = ⟨h, x⟩ :: (between ++ ⟨h', x⟩ :: rest) →
    ∃ (r : Result) (rs : List Result) (t : State), rs.length = between.length ∧
      Host.Core.run Sys2Proof.core (between.length + 2) s = .next t ∧
      t.pending = rest ∧ t.trace = s.trace ++ r :: (rs ++ [r])

/-- R99 (decision D17): the trace never forgets a result, so a run in which a fault was delivered never succeeds
afterwards. That the trace and the success are those of all hosts together is the model's choice (log 13). -/
def Obligations.TraceNeverForgetsAFault : Prop :=
  ∀ (n : Nat) (s t : State), Host.Core.run Sys2Proof.core n s = .next t →
    s.trace <+: t.trace ∧ (s.succeeded = false → t.succeeded = false)

/-! ### The result bus -/

/-- R61 (decision D6): the bus and the tagged value carry the same information, for every result the block can deliver. -/
def Obligations.BusCarriesTheResult : Prop :=
  ∀ r : Result, r.deliverable = true → r.toBus.toResult = some r

/-- R61, R95 (decisions D6, D7): RK of each kind, the outputs that belong to it, and every other output 0; RTAG is never 11
and RFC never 0 where they are driven. -/
def Obligations.BusDrivesOnlyTheDeliveredKind : Prop :=
  (∀ a : ArgumentNumber, (Result.value a).toBus =
    { Bus.zero with rk := 0b000, rtag := tagOf a.variant, rnum := a.num } ∧ tagOf a.variant ≠ 0b11#2) ∧
  (∀ b : Byte, (Result.byte b).toBus = { Bus.zero with rk := 0b001, rbyte := b }) ∧
  (∀ t : Text, ∃ len txt, (Result.text t).toBus = { Bus.zero with rk := 0b010, rlen := len, rtxt := txt } ∧
    ((Result.text t).deliverable = true → len.toNat = t.length ∧ 31 ≤ len.toNat ∧ len.toNat ≤ 36 ∧
      ∀ k : Fin 36, txt[k] = if k.val < t.length then t.getD k.val 0 else 0x00#8)) ∧
  (∀ ok : Bool, (Result.bool ok).toBus = { Bus.zero with rk := 0b011, rok := if ok then 1 else 0 }) ∧
  (∀ code : FaultCode, (Result.fault code).toBus = { Bus.zero with rk := 0b111, rfc := codeOf code } ∧
    codeOf code ≠ 0#2) ∧
  codeOf .reservedBits = 1#2 ∧ codeOf .reservedOp = 2#2 ∧ codeOf .reservedTag = 3#2 ∧
  Bus.zero = { rk := 0, rtag := 0, rnum := 0, rbyte := 0, rok := 0, rlen := 0,
               rtxt := Vector.replicate 36 0, rfc := 0 }

/-- R109 (decision D14): before any command was answered, a host that reads the bus faults and is given no value. After a
step, the host that issued the command reads the bus of its answer, and any other host's read faults. That the bus
is read so is the model's reading of R109 (log 7), and a bare byte among the commands its choice (log 1). -/
def Obligations.BusIsReadOnlyAsTheAnswerToAnOwnCommand : Prop :=
  (∀ (h : Nat) (s : State), s.trace = [] → s.readBus h = .error .noResult) ∧
  (∀ (s : State) (c : Issue) (rest : List Issue), s.pending = c :: rest →
    ∃ t : State, step s = .next t ∧ t.readBus c.host = .ok (answer c.input).toBus ∧
      ∀ h : Nat, h ≠ c.host → t.readBus h = .error .noResult)

/-! ### Assembler -/

/-- R65 (decision D18): disassembling a word and assembling the text gives back the word with its unread fields cleared, and
a reserved word as it was. The spacing and `.word` in a source are the model's reading (log 9, log 11). -/
def Obligations.DisassembledWordReassembles : Prop :=
  ∀ w : CmdWord, ∃ w' : CmdWord, assembleLine (disassemble w) = .ok (some w') ∧
    (if reservedFault w = none then Input.word w' = clearUnread (.word w) else w' = w) ∧
    answer (.word w') = answer (.word w)

/-- R62, R63 (decision D18): a value from 0 to 255 may be written in decimal, hexadecimal or binary, and each spelling
assembles to the formula of R63 with the unread fields 0. The digits of a literal are the model's choice (log 10). -/
def Obligations.LiteralSpellingsAssembleAlike : Prop :=
  ∀ (b : Byte) (spelling : Text),
    spelling = decimal b ∨ spelling = hex2 b ∨
      spelling = ascii "0b" ++ (List.range 8).map (fun k => digit (if b.getLsbD (7 - k) then 1 else 0)) →
    assembleLine (ascii "DEC " ++ spelling) = .ok (some (BitVec.ofNat 24 b.toNat)) ∧
    assembleLine (ascii "CHKB " ++ spelling) = .ok (some (BitVec.ofNat 24 (3 * 2 ^ 18 + b.toNat))) ∧
    assembleLine (ascii "ENC P, " ++ spelling) = .ok (some (BitVec.ofNat 24 (1 * 2 ^ 18 + 1 * 2 ^ 16 + b.toNat * 2 ^ 8))) ∧
    assembleLine (ascii "RND S, " ++ spelling) = .ok (some (BitVec.ofNat 24 (2 * 2 ^ 18 + 2 * 2 ^ 16 + b.toNat * 2 ^ 8))) ∧
    assembleLine (ascii "CHKV H, " ++ spelling) = .ok (some (BitVec.ofNat 24 (4 * 2 ^ 18 + b.toNat * 2 ^ 8)))

/-- R62 (decision D18): reserved command words have no assembler spelling. Whatever line the assembler accepts, the word is
not reserved and its unread fields are 0, unless the line is a raw `.word` (log 9). -/
def Obligations.AssembledCommandsAreNotReserved : Prop :=
  ∀ (line : Text) (w : CmdWord), assembleLine line = .ok (some w) →
    (∃ operands, tokens line = .word (ascii ".word") :: operands) ∨
    (reservedFault w = none ∧ clearUnread (.word w) = .word w)

/-- R62 (decision D18): the assembler refuses a value outside 0..255, an unknown mnemonic and an unknown variant letter. That
an unknown variant letter is reported whatever the number is, is the model's choice (log 8). -/
def Obligations.AssemblerRefusesWhatTheSyntaxLacks : Prop :=
  (∀ (m t : Text) (n : Nat), m = ascii "DEC" ∨ m = ascii "CHKB" → literalValue t = some n → 255 < n →
    assembleTokens [.word m, .word t] = .error .valueOutOfRange) ∧
  (∀ (m t : Text) (v : Variant) (n : Nat), m = ascii "ENC" ∨ m = ascii "RND" ∨ m = ascii "CHKV" →
    literalValue t = some n → 255 < n →
    assembleTokens [.word m, .word (variantLetter v), .comma, .word t] = .error .valueOutOfRange) ∧
  (∀ (m t u : Text), m = ascii "ENC" ∨ m = ascii "RND" ∨ m = ascii "CHKV" →
    u ≠ ascii "P" → u ≠ ascii "S" → u ≠ ascii "H" →
    assembleTokens [.word m, .word u, .comma, .word t] = .error .unknownVariant) ∧
  (∀ (m : Text) (operands : List Token), m ≠ ascii "DEC" → m ≠ ascii "CHKB" → m ≠ ascii "ENC" → m ≠ ascii "RND" →
    m ≠ ascii "CHKV" → m ≠ ascii ".word" → assembleTokens (.word m :: operands) = .error .unknownMnemonic)

/-- R62 (decision D18): one command per line, and `;` starts a comment that runs to the end of the line. A program's words
are those of its lines in order; the first line refused refuses the program. Line ends, blank lines and the refusal of the
whole source are the model's choice (log 8). -/
def Obligations.SourceIsOneCommandPerLineWithComments : Prop :=
  (∀ line comment : Text, 0x3B#8 ∉ line → assembleLine (line ++ 0x3B#8 :: comment) = assembleLine line) ∧
  (∀ line rest : Text, 0x0A#8 ∉ line → assembleSource (line ++ 0x0A#8 :: rest) =
    match assembleLine line with
    | .error e => .error e
    | .ok none => assembleSource rest
    | .ok (some w) => (assembleSource rest).map fun ws => w :: ws) ∧
  (∀ line : Text, 0x0A#8 ∉ line → assembleSource line =
    match assembleLine line with
    | .error e => .error e
    | .ok none => .ok []
    | .ok (some w) => .ok [w])

/-! ### The success of one host among several -/

/-- The model's reading of R99 (decision D17) for several hosts (log 13), after P6 of 95_test_vectors.md: a host's success
depends on its own results alone. A step on another host's command leaves it as it was; a step on its own command leaves it
successful exactly if it was and the command's answer is no Fault. Its premise is the invariant `StepKeepsOneResultPerCommand`. -/
def Obligations.HostSuccessDependsOnItsOwnResultsAlone : Prop :=
  ∀ (s : State) (c : Issue) (rest : List Issue), s.served.length = s.trace.length → s.pending = c :: rest →
    ∃ t : State, step s = .next t ∧
      (∀ h : Nat, h ≠ c.host → t.hostSucceeded h = s.hostSucceeded h) ∧
      t.hostSucceeded c.host = (s.hostSucceeded c.host && !(answer c.input).isFault)
end

