-- ==== Sys2Proof/Laws/Assembler.lean ====
section
/-! SUPPORT. What the tokens of a text are, and the value of hexadecimal digits. -/

namespace Sys2Proof.Machine

/-- A character that belongs to a word: no blank, comma or semicolon. -/
def isWordChar (b : Byte) : Bool := b != 0x3B#8 && !isBlank b && b != 0x2C#8

/-- Characters that all belong to a word make one word with what was read before them. -/
theorem tokensFrom_word (t acc : Text) (h : t.all isWordChar = true) : tokensFrom acc t = endWord (acc ++ t) [] := by
  induction t generalizing acc with
  | nil => simp [tokensFrom]
  | cons b t ih =>
    simp [isWordChar] at h
    simp [tokensFrom, h]
    rw [ih _ (by simpa [isWordChar] using h.2)]
    simp

theorem hexDigit_isWordChar (d : BitVec 4) : isWordChar (hexDigit d) = true := by
  revert d; decide

theorem digitValue_hexDigit (d : BitVec 4) : digitValue (hexDigit d) = some d.toNat := by
  revert d; decide

/-- Reading one printed hexadecimal digit. -/
theorem readDigits_hexDigit (acc : Nat) (d : BitVec 4) (t : Text) :
    readDigits 16 acc (hexDigit d :: t) = readDigits 16 (acc * 16 + d.toNat) t := by
  simp [readDigits, digitValue_hexDigit, d.isLt]

theorem variantOperand_letter (v : Variant) : variantOperand (variantLetter v) = .ok v := by
  cases v <;> decide

end Sys2Proof.Machine
end

