-- ==== Sys2Proof/Laws/Encoding.lean ====
section
/-! SUPPORT. Assembling fields into a command word, and reading them back: neither drops nor mixes a bit. -/

namespace Sys2Proof

theorem cmdRSV_assembleFields (op : OpCode) (tag : Tag) (num din : Byte) :
    cmdRSV (assembleFields op tag num din) = 0b000#3 := by
  apply BitVec.eq_of_getLsbD_eq
  intro k hk
  simp only [cmdRSV, assembleFields, BitVec.getLsbD_extractLsb', BitVec.getLsbD_or, BitVec.getLsbD_shiftLeft,
    BitVec.getLsbD_setWidth]
  interval_cases k <;> simp

theorem cmdOP_assembleFields (op : OpCode) (tag : Tag) (num din : Byte) :
    cmdOP (assembleFields op tag num din) = op := by
  apply BitVec.eq_of_getLsbD_eq
  intro k hk
  simp only [cmdOP, assembleFields, BitVec.getLsbD_extractLsb', BitVec.getLsbD_or, BitVec.getLsbD_shiftLeft,
    BitVec.getLsbD_setWidth]
  interval_cases k <;> simp

theorem cmdTAG_assembleFields (op : OpCode) (tag : Tag) (num din : Byte) :
    cmdTAG (assembleFields op tag num din) = tag := by
  apply BitVec.eq_of_getLsbD_eq
  intro k hk
  simp only [cmdTAG, assembleFields, BitVec.getLsbD_extractLsb', BitVec.getLsbD_or, BitVec.getLsbD_shiftLeft,
    BitVec.getLsbD_setWidth]
  interval_cases k <;> simp

theorem cmdNUM_assembleFields (op : OpCode) (tag : Tag) (num din : Byte) :
    cmdNUM (assembleFields op tag num din) = num := by
  apply BitVec.eq_of_getLsbD_eq
  intro k hk
  simp only [cmdNUM, assembleFields, BitVec.getLsbD_extractLsb', BitVec.getLsbD_or, BitVec.getLsbD_shiftLeft,
    BitVec.getLsbD_setWidth]
  interval_cases k <;> simp

theorem cmdDIN_assembleFields (op : OpCode) (tag : Tag) (num din : Byte) :
    cmdDIN (assembleFields op tag num din) = din := by
  apply BitVec.eq_of_getLsbD_eq
  intro k hk
  simp only [cmdDIN, assembleFields, BitVec.getLsbD_extractLsb', BitVec.getLsbD_or, BitVec.getLsbD_shiftLeft,
    BitVec.getLsbD_setWidth]
  interval_cases k <;> simp

/-- The five fields are the whole word: assembling them back gives the word, its RSV cleared. -/
theorem assembleFields_fields (w : CmdWord) :
    assembleFields (cmdOP w) (cmdTAG w) (cmdNUM w) (cmdDIN w) = w &&& 0x1FFFFF#24 := by
  apply BitVec.eq_of_getLsbD_eq
  intro k hk
  simp only [cmdOP, cmdTAG, cmdNUM, cmdDIN, assembleFields, BitVec.getLsbD_extractLsb', BitVec.getLsbD_or,
    BitVec.getLsbD_shiftLeft, BitVec.getLsbD_setWidth, BitVec.getLsbD_and]
  interval_cases k <;> simp

/-- Every operation code is one of the five, or is reserved (R55). -/
theorem opCode_cases (op : OpCode) :
    op = opDEC ∨ op = opENC ∨ op = opRND ∨ op = opCHKB ∨ op = opCHKV ∨ 0b101#3 ≤ op := by
  revert op; decide

end Sys2Proof
end

