-- ==== Sys2Proof/Laws/State.lean ====
section
/-! SUPPORT. One lemma per field of State and update: issuing a command, delivering a result, taking a fault. -/

namespace Sys2Proof.Machine

@[simp] theorem State.enqueue_pending (c : Issue) (s : State) : (s.enqueue c).pending = s.pending ++ [c] := rfl
@[simp] theorem State.enqueue_served (c : Issue) (s : State) : (s.enqueue c).served = s.served := rfl
@[simp] theorem State.enqueue_trace (c : Issue) (s : State) : (s.enqueue c).trace = s.trace := rfl

@[simp] theorem State.issueNext_pending (c : Issue) (rest : List Issue) (s : State) :
    (s.issueNext c rest).pending = rest := rfl
@[simp] theorem State.issueNext_served (c : Issue) (rest : List Issue) (s : State) :
    (s.issueNext c rest).served = s.served ++ [c] := rfl
@[simp] theorem State.issueNext_trace (c : Issue) (rest : List Issue) (s : State) :
    (s.issueNext c rest).trace = s.trace := rfl

@[simp] theorem State.deliver_pending (r : Result) (s : State) : (s.deliver r).pending = s.pending := rfl
@[simp] theorem State.deliver_served (r : Result) (s : State) : (s.deliver r).served = s.served := rfl
@[simp] theorem State.deliver_trace (r : Result) (s : State) : (s.deliver r).trace = s.trace ++ [r] := rfl

@[simp] theorem takeFault_pending (code : FaultCode) (s : State) : (takeFault code s).pending = s.pending := rfl
@[simp] theorem takeFault_served (code : FaultCode) (s : State) : (takeFault code s).served = s.served := rfl
@[simp] theorem takeFault_trace (code : FaultCode) (s : State) :
    (takeFault code s).trace = s.trace ++ [.fault code] := rfl

@[simp] theorem State.reset_pending : State.reset.pending = [] := rfl
@[simp] theorem State.reset_served : State.reset.served = [] := rfl
@[simp] theorem State.reset_trace : State.reset.trace = [] := rfl

end Sys2Proof.Machine
end

