-- ==== Sys2Proof/Laws/Ops.lean ====
section
/-! SUPPORT. One lemma per shared operation, saying all it can do: later proofs cite these instead of unfolding. -/

namespace Sys2Proof.Machine

/-- `variantOf` names a variant exactly where the tag is not 11, and then inverts `tagOf`. -/
theorem variantOf_cases (t : Tag) :
    (t = 0b11#2 ∧ variantOf t = none) ∨ ∃ v, t = tagOf v ∧ variantOf t = some v := by
  have h : t = 0b00#2 ∨ t = 0b01#2 ∨ t = 0b10#2 ∨ t = 0b11#2 := by revert t; decide
  rcases h with rfl | rfl | rfl | rfl
  · exact .inr ⟨.handle, rfl, rfl⟩
  · exact .inr ⟨.parameter, rfl, rfl⟩
  · exact .inr ⟨.session, rfl, rfl⟩
  · exact .inl ⟨rfl, rfl⟩

theorem variantOf_tagOf (v : Variant) : variantOf (tagOf v) = some v := by
  cases v <;> rfl

theorem tagIsReserved_tagOf (v : Variant) : tagIsReserved (tagOf v) = false := by
  cases v <;> rfl

/-- A command that reads TAG and NUM delivers the fault or the value's result, and does nothing else. -/
theorem withValue_cases (tag : Tag) (num : Byte) (f : ArgumentNumber → Result) (s : State) :
    (tag = 0b11#2 ∧ withValue tag num f s = s.deliver (.fault .reservedTag)) ∨
    ∃ v, tag = tagOf v ∧ withValue tag num f s = s.deliver (f ⟨v, num⟩) := by
  rcases variantOf_cases tag with ⟨ht, hv⟩ | ⟨v, ht, hv⟩
  · exact .inl ⟨ht, by simp [withValue, valueOperand, hv, takeFault]⟩
  · exact .inr ⟨v, ht, by simp [withValue, valueOperand, hv]⟩

/-- Everything `step` can do: nothing to issue, a fault delivered, or the decoded instruction run. -/
theorem step_cases (s : State) :
    (s.pending = [] ∧ step s = .fault .noCommand) ∨
    ∃ c rest, s.pending = c :: rest ∧
      ((∃ code, decodeInput c.input = .error code ∧ step s = .next (takeFault code (s.issueNext c rest))) ∨
        ∃ i, decodeInput c.input = .ok i ∧ step s = exec i (s.issueNext c rest)) := by
  cases hp : s.pending with
  | nil => exact .inl ⟨rfl, by simp [step, hp]⟩
  | cons c rest =>
    refine .inr ⟨c, rest, rfl, ?_⟩
    cases hd : decodeInput c.input with
    | error code => exact .inl ⟨code, rfl, by simp [step, hp, hd]⟩
    | ok i => exact .inr ⟨i, rfl, by simp [step, hp, hd]⟩

end Sys2Proof.Machine
end

