-- ==== Sys2Proof/Laws/PerInstr.lean ====
section
/-! SUPPORT. Per instruction: the encoded instruction is covered by its own row of the opcode table and by no other. -/

namespace Sys2Proof.Laws.CoveredByItsRow

/-- The mnemonic of an instruction's row in spec/opcode_table.json. -/
def rowName : Instr → String
  | .parameter _ => "Parameter"
  | .session _ => "Session"
  | .handle _ => "Handle"
  | .dec _ => "DEC"
  | .enc _ _ => "ENC"
  | .rnd _ _ => "RND"
  | .chkb _ => "CHKB"
  | .chkv _ _ => "CHKV"

/-- The rows that cover the encoded instruction are exactly its own row. -/
def Statement (i : Instr) : Prop := mnemonicsOf (encode i) = [rowName i]

/-- Which rows cover a command word depends on RSV and OP alone, and the assembled word has RSV = 0 and the OP given. -/
theorem assembleFields_top (op : OpCode) (tag : Tag) (num din : Byte) :
    (assembleFields op tag num din).toNat &&& 0xFC0000 = op.toNat * 2 ^ 18 := by
  have h : assembleFields op tag num din &&& 0xFC0000#24 = op.setWidth 24 <<< 18 := by
    apply BitVec.eq_of_getLsbD_eq
    intro k hk
    simp only [assembleFields, BitVec.getLsbD_and, BitVec.getLsbD_or, BitVec.getLsbD_shiftLeft,
      BitVec.getLsbD_setWidth]
    interval_cases k <;> simp
  have h2 := congrArg BitVec.toNat h
  have h3 := op.isLt
  simp only [BitVec.toNat_and, BitVec.toNat_shiftLeft, BitVec.toNat_setWidth, BitVec.toNat_ofNat] at h2
  rw [show (16515072 : Nat) % 2 ^ 24 = 0xFC0000 from rfl] at h2
  rw [h2, Nat.shiftLeft_eq]
  omega

theorem parameter (num : BitVec 4) : Statement (.parameter num) := by
  revert num; unfold Statement; decide

theorem session (num : BitVec 3) : Statement (.session num) := by
  revert num; unfold Statement; decide

theorem handle (num : BitVec 3) : Statement (.handle num) := by
  revert num; unfold Statement; decide

theorem dec (din : Byte) : Statement (.dec din) := by
  simp [Statement, mnemonicsOf, opcodeTable, encode, rowName, OpcodeRow.covers, Input.width, Input.bits,
    assembleFields_top, opDEC]

theorem enc (tag : Tag) (num : Byte) : Statement (.enc tag num) := by
  simp [Statement, mnemonicsOf, opcodeTable, encode, rowName, OpcodeRow.covers, Input.width, Input.bits,
    assembleFields_top, opENC]

theorem rnd (tag : Tag) (num : Byte) : Statement (.rnd tag num) := by
  simp [Statement, mnemonicsOf, opcodeTable, encode, rowName, OpcodeRow.covers, Input.width, Input.bits,
    assembleFields_top, opRND]

theorem chkb (din : Byte) : Statement (.chkb din) := by
  simp [Statement, mnemonicsOf, opcodeTable, encode, rowName, OpcodeRow.covers, Input.width, Input.bits,
    assembleFields_top, opCHKB]

theorem chkv (tag : Tag) (num : Byte) : Statement (.chkv tag num) := by
  simp [Statement, mnemonicsOf, opcodeTable, encode, rowName, OpcodeRow.covers, Input.width, Input.bits,
    assembleFields_top, opCHKV]

end Sys2Proof.Laws.CoveredByItsRow
end

