-- ==== Sys2Proof/Laws/Run.lean ====
section
/-! SUPPORT. Runs of the machine, one step at a time and in two parts. -/

namespace Sys2Proof.Machine

theorem run_zero (s : State) : Host.Core.run Sys2Proof.core 0 s = .next s := rfl

/-- A run of k + 1 steps is a step, and the run of k steps from where it leads. -/
theorem run_succ (k : Nat) (s : State) :
    Host.Core.run Sys2Proof.core (k + 1) s =
      match step s with
      | .next t => Host.Core.run Sys2Proof.core k t
      | .fault r => .fault r
      | .refused r => .refused r := by
  have h : Sys2Proof.core.step s = step s := rfl
  simp only [Host.Core.run]
  cases hs : step s with
  | next t => rw [h, hs]
  | fault r => rw [h, hs]
  | refused r => rw [h, hs]

/-- A run of j + k steps is the run of j steps, and the run of k steps from where it leads. -/
theorem run_add (j k : Nat) (s : State) :
    Host.Core.run Sys2Proof.core (j + k) s =
      match Host.Core.run Sys2Proof.core j s with
      | .next t => Host.Core.run Sys2Proof.core k t
      | .fault r => .fault r
      | .refused r => .refused r := by
  induction j generalizing s with
  | zero => rw [Nat.zero_add]; rfl
  | succ j ih =>
    rw [Nat.add_right_comm, run_succ, run_succ]
    cases step s with
    | next t => exact ih t
    | fault r => rfl
    | refused r => rfl

end Sys2Proof.Machine
end

