-- ==== Sys2Proof/Tests/Slice0.lean ====
section
/-! SUPPORT. Small tests: expected values are those of 95_test_vectors.md and of the rules named, never the model's own
output. Then, for every statement with hypotheses, a witness that meets them all. -/

namespace Sys2Proof.Tests
open Sys2Proof.Machine

/-- A state in which host 0 is to issue one input, after reset. -/
def issuing (x : Input) : State := { State.reset with pending := [⟨0, x⟩] }

/-- The trace a step leads to. -/
def traceAfter (o : Host.Outcome State Fault Refusal) : Option (List Result) :=
  match o with
  | .next s => some s.trace
  | .fault _ => none
  | .refused _ => none

/-- The trace after host 0 issued one command word. -/
def resultOf (w : CmdWord) : Option (List Result) := traceAfter (step (issuing (.word w)))

/-! ### Parameters (R7, R8): the types have the widths of Config -/

theorem test_widths : Byte = BitVec Config.byteW ∧ Byte = BitVec Config.numW ∧ CmdWord = BitVec Config.cmdW ∧
    OpCode = BitVec Config.opW ∧ Tag = BitVec Config.tagW := ⟨rfl, rfl, rfl, rfl, rfl⟩

/-! ### Well-formedness (R58): each check refuses an ill-formed term -/

theorem test_enc_reserved_tag_ill_formed : (Instr.enc 0b11 5).wellFormed = false := by decide
theorem test_rnd_reserved_tag_ill_formed : (Instr.rnd 0b11 0).wellFormed = false := by decide
theorem test_chkv_reserved_tag_ill_formed : (Instr.chkv 0b11 0).wellFormed = false := by decide
theorem test_enc_session_well_formed : (Instr.enc 0b10 255).wellFormed = true := by decide

/-! ### Decoding: words written out from R45 to R47, R54, R55 (95_test_vectors.md §2.1, §2.6) -/

theorem test_decode_parameter : decodeInput (.byte 0b11_1111_1_1#8) = .ok (.parameter 15) := by decide
theorem test_decode_session : decodeInput (.byte 0b00_1_000_0_0#8) = .ok (.session 0) := by decide
theorem test_decode_handle : decodeInput (.byte 0b11_0_111_1_0#8) = .ok (.handle 7) := by decide
theorem test_decode_dec : decodeInput (.word 0b000_000_00_11111111_00010101#24) = .ok (.dec 0x15) := by decide
theorem test_decode_enc : decodeInput (.word 0b000_001_00_00000011_00000000#24) = .ok (.enc 0b00 3) := by decide
theorem test_decode_rnd : decodeInput (.word 0b000_010_10_00001001_00000000#24) = .ok (.rnd 0b10 9) := by decide
theorem test_decode_chkb : decodeInput (.word 0b000_011_11_00000000_00000000#24) = .ok (.chkb 0) := by decide
theorem test_decode_chkv : decodeInput (.word 0b000_100_01_00001111_00000000#24) = .ok (.chkv 0b01 15) := by decide
theorem test_decode_reserved_op : decodeInput (.word 0x1F0000#24) = .error .reservedOp := by decide
theorem test_decode_reserved_bits : decodeInput (.word 0xFFFFFF#24) = .error .reservedBits := by decide

/-- R32, D19: 0x050F00 is carried as the bytes 00 0F 05. -/
theorem test_transport : bytesOfInput (.word 0x050F00#24) = [0x00, 0x0F, 0x05] := by decide

/-- No two rows of one width cover the same input, on the table's own patterns. -/
theorem test_rows_disjoint :
    opcodeTable.Pairwise fun a b => a.width ≠ b.width ∨ a.pattern &&& a.mask &&& b.mask ≠ b.pattern &&& b.mask &&& a.mask := by
  decide

/-- The opcode table's numbering: each row's pattern decodes to the row's instruction. -/
theorem test_table_words :
    decodeTableWord 8 0x01 = some (.parameter 0) ∧ decodeTableWord 8 0x20 = some (.session 0) ∧
    decodeTableWord 8 0x00 = some (.handle 0) ∧ decodeTableWord 24 0x000000 = some (.dec 0) ∧
    decodeTableWord 24 0x040000 = some (.enc 0 0) ∧ decodeTableWord 24 0x080000 = some (.rnd 0 0) ∧
    decodeTableWord 24 0x0C0000 = some (.chkb 0) ∧ decodeTableWord 24 0x100000 = some (.chkv 0 0) := by decide

/-- The word placed by withFetchWord is the one the next step answers. -/
theorem test_withFetchWord :
    traceAfter (step (State.reset.withFetchWord 8 0x15)) = some [.value ⟨.parameter, 5⟩] ∧
    traceAfter (step (State.reset.withFetchWord 24 0x060900)) = some [.byte 0x24] := by decide

/-! ### One step of each instruction -/

/-- Scenario B, as a bare byte. -/
theorem test_parameter : traceAfter (step (issuing (.byte 0x15))) = some [.value ⟨.parameter, 5⟩] := by decide
/-- 95_test_vectors.md §2.1, 0xFE: every bit but bit 0. -/
theorem test_session : traceAfter (step (issuing (.byte 0xFE))) = some [.value ⟨.session, 7⟩] := by decide
/-- Scenario D, as a bare byte. -/
theorem test_handle : traceAfter (step (issuing (.byte 0x0C))) = some [.value ⟨.handle, 3⟩] := by decide

/-- Corner case of R67: bits 0 and 5 both set. -/
theorem test_dec_flag_priority : resultOf 0x000021 = some [.value ⟨.parameter, 8⟩] := by decide
/-- 95_test_vectors.md §2.6: TAG = 11 in an ignored field raises no fault. -/
theorem test_dec_ignores_tag : resultOf 0x030015 = some [.value ⟨.parameter, 5⟩] := by decide

/-- P3 of 95_test_vectors.md: Session(9) is truncated. -/
theorem test_enc_truncates : resultOf 0x060900 = some [.byte 0x24] := by decide
/-- 95_test_vectors.md §2.6. -/
theorem test_enc_reserved_tag : resultOf 0x070500 = some [.fault .reservedTag] := by decide

/-- Scenario E, with the ASCII bytes of 95_test_vectors.md §2.3. -/
theorem test_rnd_handle_3 : resultOf 0x080300 = some [.text
    [0x61, 0x73, 0x73, 0x6F, 0x63, 0x69, 0x61, 0x74, 0x65, 0x64, 0x20, 0x77, 0x69, 0x74, 0x68, 0x20,
     0x68, 0x61, 0x6E, 0x64, 0x6C, 0x65, 0x20, 0x6E, 0x75, 0x6D, 0x62, 0x65, 0x72, 0x20, 0x33]] := by decide
/-- The longest text (R81, R82): three digits, not truncated to the field. -/
theorem test_rnd_longest : codecRender ⟨.parameter, 255⟩ = ascii "associated with parameter number 255" := by decide

/-- Example of R84. -/
theorem test_chkb_not_canonical : resultOf 0x0C00FF = some [.bool false] := by decide
/-- Corner case of R84: bit 5 is a number bit of Parameter(8). -/
theorem test_chkb_canonical : resultOf 0x0C0021 = some [.bool true] := by decide

/-- Example of R85. -/
theorem test_chkv_session_9 : resultOf 0x120900 = some [.bool false] := by decide
/-- 95_test_vectors.md §2.6. -/
theorem test_chkv_parameter_15 : resultOf 0x110F00 = some [.bool true] := by decide

/-! ### Faults and the bus -/

/-- 95_test_vectors.md §2.6: RESERVED_OP outranks RESERVED_TAG, and RESERVED_BITS outranks both (R96). -/
theorem test_fault_priority : resultOf 0x1F0000 = some [.fault .reservedOp] ∧
    resultOf 0xFFFFFF = some [.fault .reservedBits] ∧ resultOf 0x130000 = some [.fault .reservedTag] := by decide

/-- R61: RK = 111 and the code in RFC, every other output 0. -/
theorem test_fault_bus : (Result.fault .reservedTag).toBus = { Bus.zero with rk := 7, rfc := 3 } := by decide

/-- R61: RK = 000, RTAG = 10, RNUM = 7. -/
theorem test_value_bus : (Result.value ⟨.session, 7⟩).toBus = { Bus.zero with rk := 0, rtag := 2, rnum := 7 } := by decide

/-! ### Assembler (R62, R63, R65) -/

theorem test_assemble_enc : assembleLine (ascii "ENC P, 5 ; comment") = .ok (some 0x050500#24) := by decide
theorem test_assemble_dec : assembleLine (ascii "DEC  0b00010101") = .ok (some 0x000015#24) := by decide
theorem test_assemble_out_of_range : assembleLine (ascii "DEC 256") = .error .valueOutOfRange := by decide
theorem test_assemble_source : assembleSource (ascii "CHKV S, 9\n; P3\nENC S, 9\n") = .ok [0x120900#24, 0x060900#24] := by decide
theorem test_disassemble : disassemble 0x0A0900#24 = ascii "RND S, 0x09" ∧
    disassemble 0x1F0000#24 = ascii ".word 0x1F0000" := by decide

/-! ### Witnesses: the hypotheses of the statements are met -/

/-- Two hosts, interleaved, after one result: P6 of 95_test_vectors.md. -/
def twoHosts : State :=
  { pending := [⟨1, .word 0x140000⟩, ⟨0, .word 0x040300⟩, ⟨1, .word 0x000020⟩],
    served := [⟨0, .word 0x00000C⟩], trace := [.value ⟨.handle, 3⟩] }

theorem witness_DecodedInputEncodesBackCleared :
    decodeInput (.word 0x070501) = .ok (.enc 0b11 5) ∧ decodeInput (.byte 0xFF) = .ok (.parameter 15) := by decide

theorem witness_ByteFormatsFollowTheirMasks :
    0xFF#8 &&& 0x01#8 = 0x01#8 ∧ 0xFE#8 &&& 0x21#8 = 0x20#8 ∧ 0xDE#8 &&& 0x21#8 = 0x00#8 := by decide

theorem witness_InputCarriedAsLittleEndianBytes :
    2 < 3 ∧ ([] : List Byte).length ≠ 1 ∧ ([0, 0] : List Byte).length ≠ 3 ∧ ([0, 0] : List Byte).length ≠ 1 ∧
    ([] : List Byte).length ≠ 3 := by decide

theorem witness_CanonicalBytesAndFittingValuesCorrespond :
    isCanonical 0x3D = true ∧ (⟨.parameter, 15⟩ : ArgumentNumber).fits = true ∧
    (⟨.session, 7⟩ : ArgumentNumber).fits = true ∧ (⟨.handle, 7⟩ : ArgumentNumber).fits = true ∧
    (⟨.handle, 8⟩ : ArgumentNumber).fits = false := by decide

theorem witness_StepRunsTheDecodedInstruction :
    ((issuing (.word 0x0C0021)).pending = ⟨0, .word 0x0C0021⟩ :: [] ∧ decodeInput (.word 0x0C0021) = .ok (.chkb 0x21)) ∧
    (twoHosts.pending = ⟨1, .word 0x140000⟩ :: [⟨0, .word 0x040300⟩, ⟨1, .word 0x000020⟩] ∧
      decodeInput (.word 0x140000) = .error .reservedOp) := by decide

theorem witness_StepStopsExactlyWhenNothingIsIssued :
    State.reset.pending = [] ∧ step State.reset = .fault .noCommand ∧ twoHosts.pending ≠ [] :=
  ⟨rfl, rfl, by decide⟩

theorem witness_StepDeliversTheAnswerOfTheAlgorithm :
    twoHosts.pending = ⟨1, .word 0x140000⟩ :: [⟨0, .word 0x040300⟩, ⟨1, .word 0x000020⟩] ∧
    (issuing (.byte 0x15)).pending = ⟨0, .byte 0x15⟩ :: [] := by decide

/-- A word at the edge of each clause: RSV = 001, OP = 101 and 111, OP = 001, 010 and 100 with TAG = 11, and words that do
not fault beside them. -/
theorem witness_ReservedWordsDeliverTheirFaultByPriority :
    resultOf 0x200000 = some [.fault .reservedBits] ∧ resultOf 0x140000 = some [.fault .reservedOp] ∧
    resultOf 0x1FFFFF = some [.fault .reservedOp] ∧ resultOf 0x070000 = some [.fault .reservedTag] ∧
    resultOf 0x0BFFFF = some [.fault .reservedTag] ∧ resultOf 0x13FFFF = some [.fault .reservedTag] ∧
    resultOf 0x0F0000 = some [.bool true] ∧ resultOf 0x03FFFF = some [.value ⟨.parameter, 15⟩] ∧
    resultOf 0x12FFFF = some [.bool false] := by decide

theorem witness_UnreadFieldsChangeNoResult :
    (((opCHKB = opDEC ∨ opCHKB = opCHKB) ∧ (0x21#8 : Byte) = 0x21#8) ∧ (0b11#2 : Tag) ≠ 0b00#2) ∧
    ((opCHKV = opENC ∨ opCHKV = opRND ∨ opCHKV = opCHKV) ∧ (0b10#2 : Tag) = 0b10#2 ∧ (9#8 : Byte) = 9#8) := by decide

theorem witness_ResultIsAFunctionOfTheCommandAlone :
    (issuing (.word 0x080300)).pending = ⟨0, .word 0x080300⟩ :: [] := by decide

theorem witness_ResultIsThatOfTheFirstCommandAfterReset :
    (∃ t, step (State.reset.enqueue ⟨1, .word 0x140000⟩) = .next t) ∧
    twoHosts.pending = ⟨1, .word 0x140000⟩ :: [⟨0, .word 0x040300⟩, ⟨1, .word 0x000020⟩] :=
  ⟨⟨_, rfl⟩, by decide⟩

theorem witness_StepKeepsTheTraceAnswering : twoHosts.answersItsCommands ∧ ∃ t, step twoHosts = .next t :=
  ⟨by unfold State.answersItsCommands; decide, _, rfl⟩

theorem witness_StepKeepsTheTraceDeliverable : twoHosts.deliverableTrace ∧ ∃ t, step twoHosts = .next t :=
  ⟨by unfold State.deliverableTrace; decide, _, rfl⟩

theorem witness_StepKeepsOneResultPerCommand :
    twoHosts.served.length = twoHosts.trace.length ∧ ∃ t, step twoHosts = .next t := ⟨rfl, _, rfl⟩

theorem witness_InterleavingChangesNoResult : twoHosts.served.length = twoHosts.trace.length := rfl

theorem witness_SameCommandTwiceGivesTheSameResult :
    ({ twoHosts with pending := [⟨0, .word 0x0000FF⟩, ⟨1, .word 0x1F0000⟩, ⟨1, .word 0x0000FF⟩] } : State).pending =
      ⟨0, .word 0x0000FF⟩ :: ([⟨1, .word 0x1F0000⟩] ++ ⟨1, .word 0x0000FF⟩ :: []) := by decide

theorem witness_TraceNeverForgetsAFault :
    (∃ t, Host.Core.run Sys2Proof.core 1 { twoHosts with trace := [.fault .reservedOp] } = .next t) ∧
    ({ twoHosts with trace := [.fault .reservedOp] } : State).succeeded = false := ⟨⟨_, rfl⟩, by decide⟩

/-- The shortest and the longest text (R81). -/
theorem witness_BusCarriesTheResult :
    (Result.text (codecRender ⟨.handle, 0⟩)).deliverable = true ∧ (codecRender ⟨.handle, 0⟩).length = 31 ∧
    (Result.text (codecRender ⟨.parameter, 255⟩)).deliverable = true ∧ (codecRender ⟨.parameter, 255⟩).length = 36 := by
  decide

theorem witness_BusDrivesOnlyTheDeliveredKind :
    (Result.text (codecRender ⟨.session, 100⟩)).deliverable = true := by decide

theorem witness_BusIsReadOnlyAsTheAnswerToAnOwnCommand :
    State.reset.trace = [] ∧
    twoHosts.pending = ⟨1, .word 0x140000⟩ :: [⟨0, .word 0x040300⟩, ⟨1, .word 0x000020⟩] ∧ 0 ≠ 1 := by decide

theorem witness_LiteralSpellingsAssembleAlike :
    decimal 9 = [0x39] ∧ hex2 0xC1 = ascii "0xC1" ∧
    ascii "0b" ++ (List.range 8).map (fun k => digit (if (0x15#8).getLsbD (7 - k) then 1 else 0)) = ascii "0b00010101" := by
  decide

theorem witness_AssembledCommandsAreNotReserved :
    assembleLine (ascii "ENC H, 3") = .ok (some 0x040300#24) ∧
    assembleLine (ascii ".word 0x1F0000") = .ok (some 0x1F0000#24) := by decide

theorem witness_AssemblerRefusesWhatTheSyntaxLacks :
    literalValue (ascii "0x100") = some 256 ∧ 255 < 256 ∧ ascii "X" ≠ ascii "P" ∧ ascii "X" ≠ ascii "S" ∧
    ascii "X" ≠ ascii "H" ∧ ascii "NOP" ≠ ascii "DEC" ∧ ascii "NOP" ≠ ascii "CHKB" ∧ ascii "NOP" ≠ ascii "ENC" ∧
    ascii "NOP" ≠ ascii "RND" ∧ ascii "NOP" ≠ ascii "CHKV" ∧ ascii "NOP" ≠ ascii ".word" := by decide

/-- P6 of 95_test_vectors.md after host 1's fault: host 0's own run has succeeded so far, host 1's has not, and the joint run
has not. -/
theorem test_host_success_is_its_own :
    (({ twoHosts with served := [⟨0, .word 0x00000C⟩, ⟨1, .word 0x140000⟩],
                      trace := [.value ⟨.handle, 3⟩, .fault .reservedOp] } : State).hostSucceeded 0 = true) ∧
    (({ twoHosts with served := [⟨0, .word 0x00000C⟩, ⟨1, .word 0x140000⟩],
                      trace := [.value ⟨.handle, 3⟩, .fault .reservedOp] } : State).hostSucceeded 1 = false) ∧
    (({ twoHosts with served := [⟨0, .word 0x00000C⟩, ⟨1, .word 0x140000⟩],
                      trace := [.value ⟨.handle, 3⟩, .fault .reservedOp] } : State).succeeded = false) := by decide

/-- Both clauses: host 1 issues next and its answer is a Fault; host 0 is another host. -/
theorem witness_HostSuccessDependsOnItsOwnResultsAlone :
    twoHosts.served.length = twoHosts.trace.length ∧
    twoHosts.pending = ⟨1, .word 0x140000⟩ :: [⟨0, .word 0x040300⟩, ⟨1, .word 0x000020⟩] ∧ 0 ≠ 1 ∧
    twoHosts.hostSucceeded 1 = true ∧ (answer (.word 0x140000)).isFault = true := by decide

theorem witness_SourceIsOneCommandPerLineWithComments :
    0x3B#8 ∉ ascii "DEC 0x21 " ∧ 0x0A#8 ∉ ascii "DEC 0x21 ; note" := by decide

end Sys2Proof.Tests
end

/-! ### The encoded byte, bit by bit: the byte formats, `decodeByte`, and the codec's two functions -/

section
namespace Sys2Proof

/-- Two bytes are equal when their eight bits are: how the lemmas below compare bytes. -/
theorem byte_eq_iff_bits (x y : Byte) :
    x = y ↔ x.getLsbD 0 = y.getLsbD 0 ∧ x.getLsbD 1 = y.getLsbD 1 ∧ x.getLsbD 2 = y.getLsbD 2 ∧
      x.getLsbD 3 = y.getLsbD 3 ∧ x.getLsbD 4 = y.getLsbD 4 ∧ x.getLsbD 5 = y.getLsbD 5 ∧
      x.getLsbD 6 = y.getLsbD 6 ∧ x.getLsbD 7 = y.getLsbD 7 := by
  constructor
  · rintro rfl
    simp only [and_self]
  · rintro ⟨h0, h1, h2, h3, h4, h5, h6, h7⟩
    apply BitVec.eq_of_getLsbD_eq
    intro k hk
    interval_cases k <;> assumption

/-! #### The masks of the three formats (R45 to R47) -/

theorem parameterMask_iff (x : Byte) : x &&& 0x01#8 = 0x01#8 ↔ x.getLsbD 0 = true := by
  simp [byte_eq_iff_bits]

theorem sessionMask_iff (x : Byte) :
    x &&& 0x21#8 = 0x20#8 ↔ x.getLsbD 0 = false ∧ x.getLsbD 5 = true := by
  simp [byte_eq_iff_bits]

theorem handleMask_iff (x : Byte) :
    x &&& 0x21#8 = 0x00#8 ↔ x.getLsbD 0 = false ∧ x.getLsbD 5 = false := by
  simp [byte_eq_iff_bits]

/-! #### `decodeByte`, by bit 0 first and bit 5 next (R48, R49) -/

theorem decodeByte_parameter {x : Byte} (h0 : x.getLsbD 0 = true) :
    decodeByte x = .parameter (x.extractLsb' 2 4) := by
  simp [-BitVec.getLsbD_eq_getElem, decodeByte, parameterMask_iff, h0]

theorem decodeByte_session {x : Byte} (h0 : x.getLsbD 0 = false) (h5 : x.getLsbD 5 = true) :
    decodeByte x = .session (x.extractLsb' 2 3) := by
  simp [-BitVec.getLsbD_eq_getElem, decodeByte, parameterMask_iff, sessionMask_iff, h0, h5]

theorem decodeByte_handle {x : Byte} (h0 : x.getLsbD 0 = false) (h5 : x.getLsbD 5 = false) :
    decodeByte x = .handle (x.extractLsb' 2 3) := by
  simp [-BitVec.getLsbD_eq_getElem, decodeByte, parameterMask_iff, sessionMask_iff, h0, h5]

/-- Everything `decodeByte` can answer, with the two bits that decide it. -/
theorem decodeByte_cases (x : Byte) :
    (x.getLsbD 0 = true ∧ decodeByte x = .parameter (x.extractLsb' 2 4)) ∨
    (x.getLsbD 0 = false ∧ x.getLsbD 5 = true ∧ decodeByte x = .session (x.extractLsb' 2 3)) ∨
    (x.getLsbD 0 = false ∧ x.getLsbD 5 = false ∧ decodeByte x = .handle (x.extractLsb' 2 3)) := by
  cases h0 : x.getLsbD 0 with
  | true => exact .inl ⟨rfl, decodeByte_parameter h0⟩
  | false =>
    cases h5 : x.getLsbD 5 with
    | true => exact .inr (.inl ⟨rfl, rfl, decodeByte_session h0 h5⟩)
    | false => exact .inr (.inr ⟨rfl, rfl, decodeByte_handle h0 h5⟩)

/-! #### The concatenations of R50 as flag bits and a shifted number -/

theorem parameterByte_eq (n : BitVec 4) :
    (0b00#2 ++ n ++ 0b0#1 ++ 0b1#1 : Byte) = 0x01#8 ||| (n.setWidth 8 <<< 2) := by
  revert n; decide

theorem sessionByte_eq (n : BitVec 3) :
    (0b00#2 ++ 0b1#1 ++ n ++ 0b00#2 : Byte) = 0x20#8 ||| (n.setWidth 8 <<< 2) := by
  revert n; decide

theorem handleByte_eq (n : BitVec 3) : (0b000#3 ++ n ++ 0b00#2 : Byte) = n.setWidth 8 <<< 2 := by
  revert n; decide

/-- Encoding the format of a byte gives the byte with bits 1, 6 and 7 cleared (R51). -/
theorem encode_decodeByte (x : Byte) : encode (decodeByte x) = .byte (x &&& 0x3D#8) := by
  rcases decodeByte_cases x with ⟨h0, hd⟩ | ⟨h0, h5, hd⟩ | ⟨h0, h5, hd⟩
  · rw [hd, encode, parameterByte_eq]
    simp [-BitVec.getLsbD_eq_getElem, byte_eq_iff_bits, h0]
  · rw [hd, encode, sessionByte_eq]
    simp [-BitVec.getLsbD_eq_getElem, byte_eq_iff_bits, h0, h5]
  · rw [hd, encode, handleByte_eq]
    simp [-BitVec.getLsbD_eq_getElem, byte_eq_iff_bits, h0, h5]

/-! #### Bits 1, 6 and 7 lie outside both flags and both number fields (R51) -/

theorem getLsbD_zero_clearUnused (x : Byte) : (x &&& 0x3D#8).getLsbD 0 = x.getLsbD 0 := by simp

theorem getLsbD_five_clearUnused (x : Byte) : (x &&& 0x3D#8).getLsbD 5 = x.getLsbD 5 := by simp

theorem extractLsb'_four_clearUnused (x : Byte) : (x &&& 0x3D#8).extractLsb' 2 4 = x.extractLsb' 2 4 := by
  rw [BitVec.extractLsb'_and, show (0x3D#8).extractLsb' 2 4 = BitVec.allOnes 4 from rfl, BitVec.and_allOnes]

theorem extractLsb'_three_clearUnused (x : Byte) : (x &&& 0x3D#8).extractLsb' 2 3 = x.extractLsb' 2 3 := by
  rw [BitVec.extractLsb'_and, show (0x3D#8).extractLsb' 2 3 = BitVec.allOnes 3 from rfl, BitVec.and_allOnes]

theorem decodeByte_clearUnused (x : Byte) : decodeByte (x &&& 0x3D#8) = decodeByte x := by
  simp only [decodeByte, parameterMask_iff, sessionMask_iff, getLsbD_zero_clearUnused, getLsbD_five_clearUnused,
    extractLsb'_four_clearUnused, extractLsb'_three_clearUnused]

end Sys2Proof

namespace Sys2Proof.Machine

/-! #### `codecDecode` (R66) -/

theorem codecDecode_parameter {x : Byte} (h0 : x.getLsbD 0 = true) :
    codecDecode x = ⟨.parameter, paramField x⟩ := by
  simp [-BitVec.getLsbD_eq_getElem, codecDecode, isParameter, h0]

theorem codecDecode_session {x : Byte} (h0 : x.getLsbD 0 = false) (h5 : x.getLsbD 5 = true) :
    codecDecode x = ⟨.session, shortField x⟩ := by
  simp [-BitVec.getLsbD_eq_getElem, codecDecode, isParameter, isSession, h0, h5]

theorem codecDecode_handle {x : Byte} (h0 : x.getLsbD 0 = false) (h5 : x.getLsbD 5 = false) :
    codecDecode x = ⟨.handle, shortField x⟩ := by
  simp [-BitVec.getLsbD_eq_getElem, codecDecode, isParameter, isSession, h0, h5]

/-- Everything `codecDecode` can answer, with the two bits that decide it. -/
theorem codecDecode_cases (x : Byte) :
    (x.getLsbD 0 = true ∧ codecDecode x = ⟨.parameter, paramField x⟩) ∨
    (x.getLsbD 0 = false ∧ x.getLsbD 5 = true ∧ codecDecode x = ⟨.session, shortField x⟩) ∨
    (x.getLsbD 0 = false ∧ x.getLsbD 5 = false ∧ codecDecode x = ⟨.handle, shortField x⟩) := by
  cases h0 : x.getLsbD 0 with
  | true => exact .inl ⟨rfl, codecDecode_parameter h0⟩
  | false =>
    cases h5 : x.getLsbD 5 with
    | true => exact .inr (.inl ⟨rfl, rfl, codecDecode_session h0 h5⟩)
    | false => exact .inr (.inr ⟨rfl, rfl, codecDecode_handle h0 h5⟩)

/-- The Parameter field is bits 5..2 of the byte (R49). -/
theorem getLsbD_paramField (x : Byte) (k : Nat) :
    (paramField x).getLsbD k = (decide (k < 4) && x.getLsbD (2 + k)) := by
  by_cases hk : k < 4
  · have hk8 : k < 8 := by omega
    simp [paramField, hk, hk8]
  · simp [paramField, hk]

/-- The Session and Handle field is bits 4..2 of the byte (R49). -/
theorem getLsbD_shortField (x : Byte) (k : Nat) :
    (shortField x).getLsbD k = (decide (k < 3) && x.getLsbD (2 + k)) := by
  by_cases hk : k < 3
  · have hk8 : k < 8 := by omega
    simp [shortField, hk, hk8]
  · simp [shortField, hk]

theorem isParameter_clearUnused (x : Byte) : isParameter (x &&& 0x3D#8) = isParameter x :=
  getLsbD_zero_clearUnused x

theorem isSession_clearUnused (x : Byte) : isSession (x &&& 0x3D#8) = isSession x :=
  getLsbD_five_clearUnused x

theorem paramField_clearUnused (x : Byte) : paramField (x &&& 0x3D#8) = paramField x := by
  rw [paramField, extractLsb'_four_clearUnused, paramField]

theorem shortField_clearUnused (x : Byte) : shortField (x &&& 0x3D#8) = shortField x := by
  rw [shortField, extractLsb'_three_clearUnused, shortField]

theorem codecDecode_clearUnused (x : Byte) : codecDecode (x &&& 0x3D#8) = codecDecode x := by
  rw [codecDecode, codecDecode, isParameter_clearUnused, isSession_clearUnused, paramField_clearUnused,
    shortField_clearUnused]

/-! #### `codecEncode`, as the concatenations of R50 -/

theorem codecEncode_parameter (n : Byte) :
    codecEncode ⟨.parameter, n⟩ = 0b00#2 ++ n.extractLsb' 0 4 ++ 0b0#1 ++ 0b1#1 := by
  rw [parameterByte_eq]
  simp [-BitVec.getLsbD_eq_getElem, codecEncode, byte_eq_iff_bits]

theorem codecEncode_session (n : Byte) :
    codecEncode ⟨.session, n⟩ = 0b00#2 ++ 0b1#1 ++ n.extractLsb' 0 3 ++ 0b00#2 := by
  rw [sessionByte_eq]
  simp [-BitVec.getLsbD_eq_getElem, codecEncode, byte_eq_iff_bits]

theorem codecEncode_handle (n : Byte) :
    codecEncode ⟨.handle, n⟩ = 0b000#3 ++ n.extractLsb' 0 3 ++ 0b00#2 := by
  rw [handleByte_eq]
  simp [-BitVec.getLsbD_eq_getElem, codecEncode, byte_eq_iff_bits]

/-- A tag that names a variant makes ENC deliver the encoded byte (R74). -/
theorem exec_enc_tagOf (v : Variant) (n : Byte) (s : State) :
    exec (.enc (tagOf v) n) s = .next (s.deliver (.byte (codecEncode ⟨v, n⟩))) := by
  simp [exec, execEnc, withValue, valueOperand, variantOf_tagOf]

theorem exec_dec (x : Byte) (s : State) :
    exec (.dec x) s = .next (s.deliver (.value (codecDecode x))) := rfl

end Sys2Proof.Machine
end

/-! ### The statements of the family: encoding -/

section
namespace Sys2Proof.Machine

/-- Settles O6: encoding the byte's format gives the byte with bits 1, 6 and 7 cleared, and clearing them
changes neither the format nor what DEC delivers. -/
theorem noByteIsIllegalAndUnusedBitsAreUnread : Obligations.NoByteIsIllegalAndUnusedBitsAreUnread := by
  intro x
  have hformat : (∃ n, decodeByte x = .parameter n) ∨ (∃ n, decodeByte x = .session n) ∨
      (∃ n, decodeByte x = .handle n) := by
    rcases decodeByte_cases x with ⟨-, hd⟩ | ⟨-, -, hd⟩ | ⟨-, -, hd⟩
    · exact .inl ⟨_, hd⟩
    · exact .inr (.inl ⟨_, hd⟩)
    · exact .inr (.inr ⟨_, hd⟩)
  refine ⟨decodeByte x, x &&& 0x3D#8, hformat, rfl, ?_, encode_decodeByte x, by simp, by simp, by simp, ?_⟩
  · rw [decodeInput, decodeByte_clearUnused]
  · intro s
    rw [exec_dec, exec_dec, codecDecode_clearUnused]

/-- Settles O7: the encode half variant by variant, the decode half by the two bits that select the variant. -/
theorem encodedByteFieldMap : Obligations.EncodedByteFieldMap := by
  constructor
  · intro v n
    cases v with
    | parameter => simp [-BitVec.getLsbD_eq_getElem, codecEncode]
    | session => simp [-BitVec.getLsbD_eq_getElem, codecEncode]
    | handle => simp [-BitVec.getLsbD_eq_getElem, codecEncode]
  · intro x
    rw [codecDecode_clearUnused]
    rcases codecDecode_cases x with ⟨h0, hd⟩ | ⟨h0, h5, hd⟩ | ⟨h0, h5, hd⟩
    · simp [-BitVec.getLsbD_eq_getElem, hd, h0, getLsbD_paramField]
    · simp [-BitVec.getLsbD_eq_getElem, hd, h0, h5, getLsbD_shortField]
    · simp [-BitVec.getLsbD_eq_getElem, hd, h0, h5, getLsbD_shortField]

/-- Settles O4: each mask fixes the bits that select its format; the number sits from bit 2 on, four times its value. -/
theorem byteFormatsFollowTheirMasks : Obligations.ByteFormatsFollowTheirMasks := by
  refine ⟨fun x h => ?_, fun x h => ?_, fun x h => ?_, by decide, by decide, by decide⟩
  · rw [decodeInput, decodeByte_parameter ((parameterMask_iff x).mp h)]
  · obtain ⟨h0, h5⟩ := (sessionMask_iff x).mp h
    rw [decodeInput, decodeByte_session h0 h5]
  · obtain ⟨h0, h5⟩ := (handleMask_iff x).mp h
    rw [decodeInput, decodeByte_handle h0 h5]

/-- Settles O11: ENC delivers `codecEncode` of the value, which is R50's concatenation for its variant. -/
theorem encDeliversTheEncodedByte : Obligations.EncDeliversTheEncodedByte := by
  intro n s
  simp only [exec_enc_tagOf, State.deliver, codecEncode_parameter, codecEncode_session, codecEncode_handle,
    and_self]

end Sys2Proof.Machine
end

/-! ### The commands on a tag that names a variant, and the number fields as shifts -/

section
namespace Sys2Proof.Machine

/-- A tag that names a variant makes a command deliver its value's result. -/
theorem withValue_tagOf (v : Variant) (n : Byte) (f : ArgumentNumber → Result) (s : State) :
    withValue (tagOf v) n f s = s.deliver (f ⟨v, n⟩) := by
  simp [withValue, valueOperand, variantOf_tagOf]

/-- A tag that names a variant makes RND deliver the rendered text (R82). -/
theorem exec_rnd_tagOf (v : Variant) (n : Byte) (s : State) :
    exec (.rnd (tagOf v) n) s = .next (s.deliver (.text (codecRender ⟨v, n⟩))) := by
  rw [exec, execRnd, withValue_tagOf]

theorem exec_chkb (x : Byte) (s : State) :
    exec (.chkb x) s = .next (s.deliver (.bool (canonicalCheck x))) := rfl

/-- A tag that names a variant makes CHKV deliver whether the value survives encoding (R85). -/
theorem exec_chkv_tagOf (v : Variant) (n : Byte) (s : State) :
    exec (.chkv (tagOf v) n) s = .next (s.deliver (.bool (roundTripCheck ⟨v, n⟩))) := by
  rw [exec, execChkv, withValue_tagOf]

/-! The number fields of R49, as a shift and a mask. -/

theorem paramField_eq_shift_mask (x : Byte) : paramField x = (x >>> 2) &&& 0x0F#8 := by
  simp [-BitVec.getLsbD_eq_getElem, byte_eq_iff_bits, getLsbD_paramField]

theorem shortField_eq_shift_mask (x : Byte) : shortField x = (x >>> 2) &&& 0x07#8 := by
  simp [-BitVec.getLsbD_eq_getElem, byte_eq_iff_bits, getLsbD_shortField]

end Sys2Proof.Machine
end

/-! ### The statements of the family: decoding -/

section
namespace Sys2Proof.Machine

/-- Settles O18: DEC by the case of `codecDecode` that answers; the other four by what each delivers. -/
theorem noCodecFunctionFails : Obligations.NoCodecFunctionFails := by
  intro x v n s
  refine ⟨?_, ⟨_, exec_enc_tagOf v n s⟩, ⟨_, exec_rnd_tagOf v n s⟩, ⟨_, exec_chkb x s⟩,
    ⟨_, exec_chkv_tagOf v n s⟩⟩
  rw [exec_dec]
  rcases codecDecode_cases x with ⟨-, hd⟩ | ⟨-, -, hd⟩ | ⟨-, -, hd⟩
  · exact ⟨paramField x, .inl (by rw [hd, State.deliver])⟩
  · exact ⟨shortField x, .inr (.inl (by rw [hd, State.deliver]))⟩
  · exact ⟨shortField x, .inr (.inr (by rw [hd, State.deliver]))⟩

/-- Settles O10: in each case of `codecDecode`, the number field is the byte shifted right by 2 and masked. -/
theorem decDeliversTheDecodedValue : Obligations.DecDeliversTheDecodedValue := by
  intro x s
  rw [exec_dec, State.deliver, ← paramField_eq_shift_mask, ← shortField_eq_shift_mask]
  rcases codecDecode_cases x with ⟨h0, hd⟩ | ⟨h0, h5, hd⟩ | ⟨h0, h5, hd⟩
  · rw [hd, if_pos h0]
  · rw [hd, h0, if_neg Bool.false_ne_true, if_pos h5]
  · rw [hd, h0, h5, if_neg Bool.false_ne_true, if_neg Bool.false_ne_true]

end Sys2Proof.Machine
end

/-! ### The statements of the family: encoding a value -/

section
namespace Sys2Proof.Machine

/-- The bits `encode` leaves unused are 0 (R44, R75). -/
theorem codecEncode_unusedBits (v : Variant) (n : Byte) :
    (codecEncode ⟨v, n⟩).getLsbD 1 = false ∧ (codecEncode ⟨v, n⟩).getLsbD 6 = false ∧
      (codecEncode ⟨v, n⟩).getLsbD 7 = false := by
  obtain ⟨hencode, -⟩ := encodedByteFieldMap
  obtain ⟨-, h1, -, -, -, -, h6, h7⟩ := hencode v n
  exact ⟨h1, h6, h7⟩

/-- Settles O19: the byte ENC delivers is `codecEncode` of the value, whose unused bits are 0. -/
theorem encodedBytesHaveUnusedBitsClear : Obligations.EncodedBytesHaveUnusedBitsClear := by
  intro v n s
  exact ⟨codecEncode ⟨v, n⟩, exec_enc_tagOf v n s, codecEncode_unusedBits v n⟩

end Sys2Proof.Machine
end

/-! ### The statements of the family: rendering -/

section
namespace Sys2Proof.Machine

/-! #### `codecRender`, as the three phrases of R79 -/

theorem codecRender_parameter (n : Byte) :
    codecRender ⟨.parameter, n⟩ = ascii "associated with parameter number " ++ decimal n := rfl

theorem codecRender_session (n : Byte) :
    codecRender ⟨.session, n⟩ = ascii "associated with session number " ++ decimal n := rfl

theorem codecRender_handle (n : Byte) :
    codecRender ⟨.handle, n⟩ = ascii "associated with handle number " ++ decimal n := rfl

/-- Settles O12: RND delivers `codecRender` of the value, which is R79's phrase for its variant and the number. -/
theorem rndDeliversThePhraseAndTheNumber : Obligations.RndDeliversThePhraseAndTheNumber := by
  intro n s
  refine ⟨?_, ?_, ?_⟩
  · rw [exec_rnd_tagOf, State.deliver, codecRender_parameter]
  · rw [exec_rnd_tagOf, State.deliver, codecRender_session]
  · rw [exec_rnd_tagOf, State.deliver, codecRender_handle]

end Sys2Proof.Machine
end

/-! ### The command word: what the decoder reads of it, and which of its bits nothing reads -/

section
namespace Sys2Proof

/-- Everything `decodeCommand` can answer, with the fields that decide it (R55, R60, R96). -/
theorem decodeCommand_cases (w : CmdWord) :
    (cmdRSV w ≠ 0b000#3 ∧ decodeCommand w = .error .reservedBits) ∨
    (cmdRSV w = 0b000#3 ∧
      ((cmdOP w = opDEC ∧ decodeCommand w = .ok (.dec (cmdDIN w))) ∨
       (cmdOP w = opENC ∧ decodeCommand w = .ok (.enc (cmdTAG w) (cmdNUM w))) ∨
       (cmdOP w = opRND ∧ decodeCommand w = .ok (.rnd (cmdTAG w) (cmdNUM w))) ∨
       (cmdOP w = opCHKB ∧ decodeCommand w = .ok (.chkb (cmdDIN w))) ∨
       (cmdOP w = opCHKV ∧ decodeCommand w = .ok (.chkv (cmdTAG w) (cmdNUM w))) ∨
       (0b101#3 ≤ cmdOP w ∧ decodeCommand w = .error .reservedOp))) := by
  by_cases hrsv : cmdRSV w = 0b000#3
  · refine .inr ⟨hrsv, ?_⟩
    rcases opCode_cases (cmdOP w) with hop | hop | hop | hop | hop | hop
    · exact .inl ⟨hop, by simp [decodeCommand, hrsv, hop]⟩
    · exact .inr (.inl ⟨hop, by simp [decodeCommand, hrsv, hop, opDEC, opENC]⟩)
    · exact .inr (.inr (.inl ⟨hop, by simp [decodeCommand, hrsv, hop, opDEC, opENC, opRND]⟩))
    · exact .inr (.inr (.inr (.inl ⟨hop, by simp [decodeCommand, hrsv, hop, opDEC, opENC, opRND, opCHKB]⟩)))
    · exact .inr (.inr (.inr (.inr (.inl
        ⟨hop, by simp [decodeCommand, hrsv, hop, opDEC, opENC, opRND, opCHKB, opCHKV]⟩))))
    · have hne : ∀ op : OpCode, 0b101#3 ≤ op →
          op ≠ opDEC ∧ op ≠ opENC ∧ op ≠ opRND ∧ op ≠ opCHKB ∧ op ≠ opCHKV := by
        decide
      exact .inr (.inr (.inr (.inr (.inr ⟨hop, by simp [decodeCommand, hrsv, hne _ hop]⟩))))
  · exact .inl ⟨hrsv, by simp [decodeCommand, hrsv]⟩

/-! #### Assembled fields are decoded, each operation reading its own (R57, R63) -/

theorem decodeCommand_dec (tag : Tag) (num din : Byte) :
    decodeCommand (assembleFields opDEC tag num din) = .ok (.dec din) := by
  simp [decodeCommand, cmdRSV_assembleFields, cmdOP_assembleFields, cmdDIN_assembleFields]

theorem decodeCommand_enc (tag : Tag) (num din : Byte) :
    decodeCommand (assembleFields opENC tag num din) = .ok (.enc tag num) := by
  simp [decodeCommand, cmdRSV_assembleFields, cmdOP_assembleFields, cmdTAG_assembleFields, cmdNUM_assembleFields,
    opDEC, opENC]

theorem decodeCommand_rnd (tag : Tag) (num din : Byte) :
    decodeCommand (assembleFields opRND tag num din) = .ok (.rnd tag num) := by
  simp [decodeCommand, cmdRSV_assembleFields, cmdOP_assembleFields, cmdTAG_assembleFields, cmdNUM_assembleFields,
    opDEC, opENC, opRND]

theorem decodeCommand_chkb (tag : Tag) (num din : Byte) :
    decodeCommand (assembleFields opCHKB tag num din) = .ok (.chkb din) := by
  simp [decodeCommand, cmdRSV_assembleFields, cmdOP_assembleFields, cmdDIN_assembleFields,
    opDEC, opENC, opRND, opCHKB]

theorem decodeCommand_chkv (tag : Tag) (num din : Byte) :
    decodeCommand (assembleFields opCHKV tag num din) = .ok (.chkv tag num) := by
  simp [decodeCommand, cmdRSV_assembleFields, cmdOP_assembleFields, cmdTAG_assembleFields, cmdNUM_assembleFields,
    opDEC, opENC, opRND, opCHKB, opCHKV]

/-! #### Clearing the fields that an operation does not read -/

/-- A word whose RSV is 000 is its other four fields, assembled. -/
theorem assembleFields_of_cmdRSV_zero {w : CmdWord} (hrsv : cmdRSV w = 0b000#3) :
    assembleFields (cmdOP w) (cmdTAG w) (cmdNUM w) (cmdDIN w) = w := by
  have hbits : ∀ k < 3, w.getLsbD (21 + k) = false := by
    intro k hk
    have := congrArg (fun v => v.getLsbD k) hrsv
    simpa [-BitVec.getLsbD_eq_getElem, cmdRSV, hk] using this
  rw [assembleFields_fields]
  apply BitVec.eq_of_getLsbD_eq
  intro k hk
  have h21 := hbits 0 (by omega)
  have h22 := hbits 1 (by omega)
  have h23 := hbits 2 (by omega)
  interval_cases k <;> simp_all

theorem assembleFields_and_readDin (op : OpCode) (tag : Tag) (num din : Byte) :
    assembleFields op tag num din &&& 0xFC00FF#24 = assembleFields op 0#2 0#8 din := by
  apply BitVec.eq_of_getLsbD_eq
  intro k hk
  simp only [assembleFields, BitVec.getLsbD_or, BitVec.getLsbD_shiftLeft, BitVec.getLsbD_setWidth, BitVec.getLsbD_and]
  interval_cases k <;> simp

theorem assembleFields_and_readTag (op : OpCode) (tag : Tag) (num din : Byte) :
    assembleFields op tag num din &&& 0xFFFF00#24 = assembleFields op tag num 0#8 := by
  apply BitVec.eq_of_getLsbD_eq
  intro k hk
  simp only [assembleFields, BitVec.getLsbD_or, BitVec.getLsbD_shiftLeft, BitVec.getLsbD_setWidth, BitVec.getLsbD_and]
  interval_cases k <;> simp

theorem clearUnread_readDin {w : CmdWord} (hrsv : cmdRSV w = 0b000#3) (hop : opReadsDin (cmdOP w) = true) :
    clearUnread (.word w) = .word (assembleFields (cmdOP w) 0#2 0#8 (cmdDIN w)) := by
  rw [← assembleFields_and_readDin (cmdOP w) (cmdTAG w) (cmdNUM w), assembleFields_of_cmdRSV_zero hrsv]
  simp [clearUnread, hrsv, hop]

theorem clearUnread_readTag {w : CmdWord} (hrsv : cmdRSV w = 0b000#3) (hop : opReadsTag (cmdOP w) = true) :
    clearUnread (.word w) = .word (assembleFields (cmdOP w) (cmdTAG w) (cmdNUM w) 0#8) := by
  have hdin : opReadsDin (cmdOP w) = false := by
    revert hop; generalize cmdOP w = op; revert op; decide
  rw [← assembleFields_and_readTag (cmdOP w) (cmdTAG w) (cmdNUM w) (cmdDIN w), assembleFields_of_cmdRSV_zero hrsv]
  simp [clearUnread, hrsv, hop, hdin]

/-- Encoding a decoded command gives the word with its unread fields cleared (R57). -/
theorem encode_of_decodeCommand {w : CmdWord} {i : Instr} (h : decodeCommand w = .ok i) :
    encode i = clearUnread (.word w) := by
  rcases decodeCommand_cases w with
    ⟨-, hd⟩ | ⟨hrsv, ⟨hop, hd⟩ | ⟨hop, hd⟩ | ⟨hop, hd⟩ | ⟨hop, hd⟩ | ⟨hop, hd⟩ | ⟨-, hd⟩⟩ <;>
    rw [hd] at h <;> cases h
  · rw [clearUnread_readDin hrsv (by rw [hop]; rfl), hop, encode]
  · rw [clearUnread_readTag hrsv (by rw [hop]; rfl), hop, encode]
  · rw [clearUnread_readTag hrsv (by rw [hop]; rfl), hop, encode]
  · rw [clearUnread_readDin hrsv (by rw [hop]; rfl), hop, encode]
  · rw [clearUnread_readTag hrsv (by rw [hop]; rfl), hop, encode]

/-! #### The format of an encoded byte -/

theorem decodeByte_parameterByte (n : BitVec 4) :
    decodeByte (0b00#2 ++ n ++ 0b0#1 ++ 0b1#1) = .parameter n := by
  revert n; decide

theorem decodeByte_sessionByte (n : BitVec 3) :
    decodeByte (0b00#2 ++ 0b1#1 ++ n ++ 0b00#2) = .session n := by
  revert n; decide

theorem decodeByte_handleByte (n : BitVec 3) : decodeByte (0b000#3 ++ n ++ 0b00#2) = .handle n := by
  revert n; decide

/-! #### A word as three bytes (R32) -/

/-- The three bytes of a word, highest first, are the word. -/
theorem append_bytes_of_word (w : CmdWord) :
    w.extractLsb' 16 8 ++ w.extractLsb' 8 8 ++ w.extractLsb' 0 8 = w := by
  apply BitVec.eq_of_getLsbD_eq
  intro k hk
  simp only [BitVec.getLsbD_append, BitVec.getLsbD_extractLsb']
  interval_cases k <;> simp

end Sys2Proof
end

/-! ### The statements of the family: words and bytes -/

section
namespace Sys2Proof.Machine

/-- Settles O2: constructor by constructor, the decoder reads back the fields that `encode` placed. -/
theorem encodedInstructionDecodesBack : Obligations.EncodedInstructionDecodesBack := by
  intro i
  cases i with
  | parameter num => rw [encode, decodeInput, decodeByte_parameterByte]
  | session num => rw [encode, decodeInput, decodeByte_sessionByte]
  | handle num => rw [encode, decodeInput, decodeByte_handleByte]
  | dec din => exact decodeCommand_dec 0#2 0#8 din
  | enc tag num => exact decodeCommand_enc tag num 0#8
  | rnd tag num => exact decodeCommand_rnd tag num 0#8
  | chkb din => exact decodeCommand_chkb 0#2 0#8 din
  | chkv tag num => exact decodeCommand_chkv tag num 0#8

/-- Settles O3: for a byte by its format, for a command word by the fields that its operation reads. -/
theorem decodedInputEncodesBackCleared : Obligations.DecodedInputEncodesBackCleared := by
  intro x i h
  cases x with
  | byte x =>
    cases h
    exact encode_decodeByte x
  | word w => exact encode_of_decodeCommand h

/-- Settles O8: a word is its three bytes appended, highest first; no other number of bytes is read. -/
theorem inputCarriedAsLittleEndianBytes : Obligations.InputCarriedAsLittleEndianBytes := by
  refine ⟨fun w k hk => ?_, fun x => ?_, fun bs h1 h3 => ?_⟩
  · interval_cases k <;> rfl
  · cases x with
    | byte x => rfl
    | word w => rw [bytesOfInput, inputOfBytes, append_bytes_of_word]
  · match bs with
    | [] => rfl
    | [_] => exact absurd rfl h1
    | [_, _] => rfl
    | [_, _, _] => exact absurd rfl h3
    | _ :: _ :: _ :: _ :: _ => rfl

/-- Settles O1: each word is decoded by evaluation. -/
theorem specWordsDecodeToTheirInstructions : Obligations.SpecWordsDecodeToTheirInstructions := by
  unfold Obligations.SpecWordsDecodeToTheirInstructions
  decide

end Sys2Proof.Machine
end

/-! ### The rows of the opcode table that cover a bare byte -/

section
namespace Sys2Proof

/-- A mask and a pattern of eight bits select the same bytes as numbers and as bit vectors. -/
theorem toNat_and_eq_toNat_iff (x mask pattern : Byte) :
    x.toNat &&& mask.toNat = pattern.toNat ↔ x &&& mask = pattern := by
  rw [← BitVec.toNat_and, BitVec.toNat_inj]

theorem toNat_parameterMask_iff (x : Byte) : x.toNat &&& 1 = 1 ↔ x.getLsbD 0 = true :=
  (toNat_and_eq_toNat_iff x 0x01#8 0x01#8).trans (parameterMask_iff x)

theorem toNat_sessionMask_iff (x : Byte) :
    x.toNat &&& 33 = 32 ↔ x.getLsbD 0 = false ∧ x.getLsbD 5 = true :=
  (toNat_and_eq_toNat_iff x 0x21#8 0x20#8).trans (sessionMask_iff x)

theorem toNat_handleMask_iff (x : Byte) :
    x.toNat &&& 33 = 0 ↔ x.getLsbD 0 = false ∧ x.getLsbD 5 = false :=
  (toNat_and_eq_toNat_iff x 0x21#8 0x00#8).trans (handleMask_iff x)

/-- The one row that covers a byte, by bit 0 first and bit 5 next (R48). -/
theorem mnemonicsOf_byte (x : Byte) :
    mnemonicsOf (.byte x) =
      if x.getLsbD 0 then ["Parameter"] else if x.getLsbD 5 then ["Session"] else ["Handle"] := by
  have hp := toNat_parameterMask_iff x
  have hs := toNat_sessionMask_iff x
  have hh := toNat_handleMask_iff x
  simp only [mnemonicsOf, opcodeTable, OpcodeRow.covers, Input.width, Input.bits]
  cases h0 : x.getLsbD 0 with
  | true => simp [*, -BitVec.getLsbD_eq_getElem, -Nat.and_one_is_mod]
  | false =>
    cases h5 : x.getLsbD 5 with
    | true => simp [*, -BitVec.getLsbD_eq_getElem, -Nat.and_one_is_mod]
    | false => simp [*, -BitVec.getLsbD_eq_getElem, -Nat.and_one_is_mod]

/-- Counting the first 256 numbers in four parts. -/
theorem countP_range_256 (p : Nat → Bool) :
    (List.range 256).countP p =
      (List.range 64).countP p + (List.range 64).countP (fun k => p (64 + k)) +
        (List.range 64).countP (fun k => p (128 + k)) + (List.range 64).countP (fun k => p (192 + k)) := by
  rw [show 256 = 192 + 64 from rfl, List.range_add, List.countP_append, List.countP_map,
    show 192 = 128 + 64 from rfl, List.range_add, List.countP_append, List.countP_map,
    show 128 = 64 + 64 from rfl, List.range_add, List.countP_append, List.countP_map]
  rfl

end Sys2Proof

namespace Sys2Proof.Machine

/-- Settles O5: the row by the two flag bits, and then the counts by counting bytes with those flag bits. -/
theorem everyByteHasOneFormatByPriority : Obligations.EveryByteHasOneFormatByPriority := by
  refine ⟨mnemonicsOf_byte, ?_, ?_, ?_⟩
  · simp only [mnemonicsOf_byte, countP_range_256]; decide
  · simp only [mnemonicsOf_byte, countP_range_256]; decide
  · simp only [mnemonicsOf_byte, countP_range_256]; decide

end Sys2Proof.Machine
end

/-! ### The codec's laws: what decoding an encoded value, and encoding a decoded byte, keep -/

section
namespace Sys2Proof.Machine

/-- Encoding what a byte decodes to clears bits 1, 6 and 7 (R86). -/
theorem codecEncode_codecDecode (x : Byte) : codecEncode (codecDecode x) = x &&& 0x3D#8 := by
  rcases codecDecode_cases x with ⟨h0, hd⟩ | ⟨h0, h5, hd⟩ | ⟨h0, h5, hd⟩
  · simp [-BitVec.getLsbD_eq_getElem, hd, codecEncode, byte_eq_iff_bits, getLsbD_paramField, h0]
  · simp [-BitVec.getLsbD_eq_getElem, hd, codecEncode, byte_eq_iff_bits, getLsbD_shortField, h0, h5]
  · simp [-BitVec.getLsbD_eq_getElem, hd, codecEncode, byte_eq_iff_bits, getLsbD_shortField, h0, h5]

/-- The bits of a number that the field of its variant holds (R49, R76). -/
def fieldMask : Variant → Byte
  | .parameter => 0x0F#8
  | .session => 0x07#8
  | .handle => 0x07#8

/-- Decoding what a value encodes to keeps the variant, and of the number what fits the field (R89). -/
theorem codecDecode_codecEncode (v : Variant) (n : Byte) :
    codecDecode (codecEncode ⟨v, n⟩) = ⟨v, n &&& fieldMask v⟩ := by
  cases v with
  | parameter =>
    rw [codecDecode_parameter (by simp [codecEncode]), paramField_eq_shift_mask]
    simp [-BitVec.getLsbD_eq_getElem, codecEncode, fieldMask, byte_eq_iff_bits]
  | session =>
    rw [codecDecode_session (by simp [codecEncode]) (by simp [codecEncode]), shortField_eq_shift_mask]
    simp [-BitVec.getLsbD_eq_getElem, codecEncode, fieldMask, byte_eq_iff_bits]
  | handle =>
    rw [codecDecode_handle (by simp [codecEncode]) (by simp [codecEncode]), shortField_eq_shift_mask]
    simp [-BitVec.getLsbD_eq_getElem, codecEncode, fieldMask, byte_eq_iff_bits]

/-- A byte survives being decoded and encoded exactly when its unused bits are clear (R87). -/
theorem codecEncode_codecDecode_eq_self_iff (x : Byte) : codecEncode (codecDecode x) = x ↔ x &&& 0xC2#8 = 0#8 := by
  rw [codecEncode_codecDecode]
  simp [-BitVec.getLsbD_eq_getElem, byte_eq_iff_bits]

theorem isCanonical_iff (x : Byte) : isCanonical x = true ↔ codecEncode (codecDecode x) = x := by
  rw [codecEncode_codecDecode_eq_self_iff, isCanonical, beq_iff_eq]

theorem canonicalCheck_eq_decide (x : Byte) : canonicalCheck x = decide (codecEncode (codecDecode x) = x) :=
  beq_eq_decide _ _

theorem roundTripCheck_eq_decide (a : ArgumentNumber) :
    roundTripCheck a = decide (codecDecode (codecEncode a) = a) :=
  beq_eq_decide _ _

/-- Masking with the low `k` bits changes no number below `2 ^ k`. -/
theorem and_lowBits_eq_self_iff (n : Byte) (k : Nat) (hk : k ≤ 8) :
    n &&& BitVec.ofNat 8 (2 ^ k - 1) = n ↔ n.toNat < 2 ^ k := by
  have hpow : 2 ^ k ≤ 2 ^ 8 := Nat.pow_le_pow_right (by decide) hk
  have hpos : 0 < 2 ^ k := Nat.two_pow_pos k
  rw [← BitVec.toNat_inj, BitVec.toNat_and, BitVec.toNat_ofNat, Nat.mod_eq_of_lt (by omega),
    Nat.and_two_pow_sub_one_eq_mod]
  exact Nat.mod_eq_iff_lt hpos.ne'

/-- A value fits exactly when its number lies within the field of its variant (R88). -/
theorem fits_iff (v : Variant) (n : Byte) : (⟨v, n⟩ : ArgumentNumber).fits = true ↔ n &&& fieldMask v = n := by
  have h4 := and_lowBits_eq_self_iff n 4 (by decide)
  have h3 := and_lowBits_eq_self_iff n 3 (by decide)
  cases v with
  | parameter => exact decide_eq_true_iff.trans (Nat.lt_succ_iff.symm.trans h4.symm)
  | session => exact decide_eq_true_iff.trans (Nat.lt_succ_iff.symm.trans h3.symm)
  | handle => exact decide_eq_true_iff.trans (Nat.lt_succ_iff.symm.trans h3.symm)

/-- A value survives being encoded and decoded exactly when it fits (R88). -/
theorem codecDecode_codecEncode_eq_self_iff (a : ArgumentNumber) :
    codecDecode (codecEncode a) = a ↔ a.fits = true := by
  obtain ⟨v, n⟩ := a
  rw [codecDecode_codecEncode, fits_iff, ArgumentNumber.mk.injEq, and_iff_right rfl]

/-- The bound on a number that fits, as R88 lists it. -/
theorem fits_iff_le (a : ArgumentNumber) :
    a.fits = true ↔
      (a.variant = .parameter ∧ a.num.toNat ≤ 15) ∨ (a.variant ≠ .parameter ∧ a.num.toNat ≤ 7) := by
  obtain ⟨v, n⟩ := a
  cases v <;> simp [ArgumentNumber.fits]

/-- Decoding a byte a second time, after encoding, gives the same value (R71). -/
theorem codecDecode_codecEncode_codecDecode (x : Byte) :
    codecDecode (codecEncode (codecDecode x)) = codecDecode x := by
  rw [codecEncode_codecDecode, codecDecode_clearUnused]

theorem fits_codecDecode (x : Byte) : (codecDecode x).fits = true :=
  (codecDecode_codecEncode_eq_self_iff _).mp (codecDecode_codecEncode_codecDecode x)

theorem isCanonical_codecEncode (a : ArgumentNumber) : isCanonical (codecEncode a) = true := by
  obtain ⟨h1, h6, h7⟩ := codecEncode_unusedBits a.variant a.num
  rw [isCanonical, beq_iff_eq]
  simp [-BitVec.getLsbD_eq_getElem, byte_eq_iff_bits, h1, h6, h7]

end Sys2Proof.Machine
end

/-! ### The statements of the family: the laws of the codec -/

section
namespace Sys2Proof.Machine

/-- Settles O14: CHKB delivers its check, and encoding the decoded byte clears exactly the unused bits. -/
theorem chkbDeliversWhetherTheByteIsCanonical : Obligations.ChkbDeliversWhetherTheByteIsCanonical := by
  intro x s
  exact ⟨by rw [exec_chkb, canonicalCheck_eq_decide, State.deliver], codecEncode_codecDecode_eq_self_iff x⟩

/-- Settles O15: CHKV delivers its check, and a value survives encoding exactly when it fits. -/
theorem chkvDeliversWhetherTheValueFits : Obligations.ChkvDeliversWhetherTheValueFits := by
  intro v n s
  exact ⟨by rw [exec_chkv_tagOf, roundTripCheck_eq_decide, State.deliver],
    (codecDecode_codecEncode_eq_self_iff _).trans (fits_iff_le _)⟩

/-- Settles O20: ENC encodes the value DEC delivered, which clears the byte's unused bits. -/
theorem decThenEncCanonicalises : Obligations.DecThenEncCanonicalises := by
  intro x s
  refine ⟨codecDecode x, exec_dec x s, fun s' => ?_⟩
  rw [exec_enc_tagOf, codecEncode_codecDecode, State.deliver]

/-- Settles O21: DEC decodes the byte ENC delivered, which keeps the field's bits of the number. -/
theorem encThenDecTruncatesTheNumber : Obligations.EncThenDecTruncatesTheNumber := by
  intro v n s
  refine ⟨codecEncode ⟨v, n⟩, exec_enc_tagOf v n s, fun s' => ?_⟩
  rw [exec_dec, codecDecode_codecEncode, State.deliver]
  cases v <;> rfl

/-- Settles O22: a decoded value fits, so it survives encoding; an encoded byte is canonical, so it survives decoding. -/
theorem decodedValuesFitAndEncodedBytesAreCanonical : Obligations.DecodedValuesFitAndEncodedBytesAreCanonical := by
  refine ⟨fun x s => ⟨codecDecode x, exec_dec x s, ?_, fun s' => ?_⟩,
    fun v n s => ⟨codecEncode ⟨v, n⟩, exec_enc_tagOf v n s, fun s' => ?_⟩⟩
  · rcases (fits_iff_le _).mp (fits_codecDecode x) with ⟨hv, hn⟩ | ⟨hv, hn⟩
    · rwa [if_pos hv]
    · rwa [if_neg hv]
  · rw [exec_chkv_tagOf, roundTripCheck_eq_decide, codecDecode_codecEncode_codecDecode, decide_eq_true rfl,
      State.deliver]
  · rw [exec_chkb, canonicalCheck_eq_decide, decide_eq_true ((isCanonical_iff _).mp (isCanonical_codecEncode _)),
      State.deliver]

/-- Settles O23: canonical bytes and fitting values are those the two round trips fix; the 32 bytes are counted. -/
theorem canonicalBytesAndFittingValuesCorrespond : Obligations.CanonicalBytesAndFittingValuesCorrespond := by
  refine ⟨fun x hx => ⟨fits_codecDecode x, (isCanonical_iff x).mp hx⟩,
    fun a ha => ⟨isCanonical_codecEncode a, (codecDecode_codecEncode_eq_self_iff a).mpr ha⟩,
    fun x => ⟨fun hx => ⟨codecDecode x, (isCanonical_iff x).mp hx⟩, ?_⟩, by rw [countP_range_256]; decide⟩
  rintro ⟨a, rfl⟩
  exact isCanonical_codecEncode a

end Sys2Proof.Machine
end

/-! ### The decimal number and the rendered text -/

section
namespace Sys2Proof.Machine

theorem toNat_digit {d : Nat} (hd : d < 10) : (digit d).toNat = 0x30 + d := by
  rw [digit, BitVec.toNat_ofNat]
  omega

/-- A number in one, two or three digits, with the bounds that decide how many (R80). -/
theorem decimal_cases (n : Byte) :
    (n.toNat < 10 ∧ decimal n = [digit n.toNat]) ∨
    (10 ≤ n.toNat ∧ n.toNat < 100 ∧ decimal n = [digit (n.toNat / 10), digit (n.toNat % 10)]) ∨
    (100 ≤ n.toNat ∧ decimal n = [digit (n.toNat / 100), digit (n.toNat / 10 % 10), digit (n.toNat % 10)]) := by
  by_cases h10 : n.toNat < 10
  · exact .inl ⟨h10, by rw [decimal, if_pos h10]⟩
  · by_cases h100 : n.toNat < 100
    · exact .inr (.inl ⟨by omega, h100, by rw [decimal, if_neg h10, if_pos h100]⟩)
    · exact .inr (.inr ⟨by omega, by rw [decimal, if_neg h10, if_neg h100]⟩)

/-- Every character of a decimal number is the character of a digit. -/
theorem exists_digit_of_mem_decimal {n b : Byte} (hb : b ∈ decimal n) : ∃ d < 10, b = digit d := by
  have hlt := n.isLt
  rcases decimal_cases n with ⟨h, hd⟩ | ⟨h, h', hd⟩ | ⟨h, hd⟩ <;>
    simp only [hd, List.mem_cons, List.not_mem_nil, or_false] at hb
  · exact ⟨_, h, hb⟩
  · rcases hb with hb | hb
    · exact ⟨_, by omega, hb⟩
    · exact ⟨_, by omega, hb⟩
  · rcases hb with hb | hb | hb
    · exact ⟨_, by omega, hb⟩
    · exact ⟨_, by omega, hb⟩
    · exact ⟨_, by omega, hb⟩

theorem length_decimal (n : Byte) :
    (decimal n).length = if n.toNat < 10 then 1 else if n.toNat < 100 then 2 else 3 := by
  rw [decimal]
  split
  · rfl
  · split <;> rfl

theorem length_decimal_bounds (n : Byte) : 1 ≤ (decimal n).length ∧ (decimal n).length ≤ 3 := by
  rw [length_decimal]
  split
  · decide
  · split <;> decide

theorem foldl_decimal (n : Byte) :
    (decimal n).foldl (fun acc b => acc * 10 + (b.toNat - 0x30)) 0 = n.toNat := by
  have hlt := n.isLt
  rcases decimal_cases n with ⟨h, hd⟩ | ⟨h, h', hd⟩ | ⟨h, hd⟩
  · simp only [hd, List.foldl_cons, List.foldl_nil, toNat_digit h]
    omega
  · have h1 : n.toNat / 10 < 10 := by omega
    have h0 : n.toNat % 10 < 10 := by omega
    simp only [hd, List.foldl_cons, List.foldl_nil, toNat_digit h1, toNat_digit h0]
    omega
  · have h2 : n.toNat / 100 < 10 := by omega
    have h1 : n.toNat / 10 % 10 < 10 := by omega
    have h0 : n.toNat % 10 < 10 := by omega
    simp only [hd, List.foldl_cons, List.foldl_nil, toNat_digit h2, toNat_digit h1, toNat_digit h0]
    omega

theorem digit_eq_zero_iff {d : Nat} (hd : d < 10) : digit d = 0x30#8 ↔ d = 0 := by
  rw [← BitVec.toNat_inj, toNat_digit hd]
  exact Nat.add_eq_left

/-- Only 0 is written with a leading zero (R80). -/
theorem eq_zero_of_head?_decimal {n : Byte} (h0 : (decimal n).head? = some 0x30#8) : n = 0#8 := by
  have hlt := n.isLt
  rcases decimal_cases n with ⟨h, hd⟩ | ⟨h, h', hd⟩ | ⟨h, hd⟩ <;>
    rw [hd, List.head?_cons, Option.some_inj, digit_eq_zero_iff (by omega)] at h0
  · exact BitVec.eq_of_toNat_eq h0
  · omega
  · omega

theorem length_phrase (v : Variant) : 30 ≤ (phrase v).length ∧ (phrase v).length ≤ 33 := by
  cases v <;> decide

theorem length_codecRender (a : ArgumentNumber) :
    31 ≤ (codecRender a).length ∧ (codecRender a).length ≤ 36 := by
  have hphrase := length_phrase a.variant
  have hnumber := length_decimal_bounds a.num
  rw [codecRender, List.length_append]
  omega

theorem isAscii_of_mem_phrase {v : Variant} {b : Byte} (hb : b ∈ phrase v) : b.toNat < 128 := by
  have hphrase : (phrase v).all (fun b => decide (b.toNat < 128)) = true := by
    cases v <;> rfl
  exact of_decide_eq_true (List.all_eq_true.mp hphrase b hb)

/-- A rendered text is ASCII (R27, R81). -/
theorem isAscii_of_mem_codecRender {a : ArgumentNumber} {b : Byte} (hb : b ∈ codecRender a) : b.toNat < 128 := by
  rcases List.mem_append.mp hb with hb | hb
  · exact isAscii_of_mem_phrase hb
  · obtain ⟨d, hd, rfl⟩ := exists_digit_of_mem_decimal hb
    rw [toNat_digit hd]
    omega

/-- Settles O13: by the three lengths of a decimal number, and the length of each phrase. -/
theorem renderedNumberIsPlainDecimal : Obligations.RenderedNumberIsPlainDecimal := by
  refine ⟨fun n => ⟨fun b hb => ?_, foldl_decimal n, length_decimal n, eq_zero_of_head?_decimal⟩,
    length_codecRender, by decide, by decide⟩
  obtain ⟨d, hd, rfl⟩ := exists_digit_of_mem_decimal hb
  rw [toNat_digit hd]
  omega

end Sys2Proof.Machine
end

/-! ### The one result of an instruction, and of an input -/

section
namespace Sys2Proof.Machine

/-- The result of a command that reads TAG and NUM: RESERVED_TAG, or what `f` gives for the value named. -/
def valueResult (tag : Tag) (num : Byte) (f : ArgumentNumber → Result) : Result :=
  ((valueOperand tag num).map f).getD (.fault .reservedTag)

theorem valueResult_tagOf (v : Variant) (n : Byte) (f : ArgumentNumber → Result) :
    valueResult (tagOf v) n f = f ⟨v, n⟩ := by
  simp [valueResult, valueOperand, variantOf_tagOf]

theorem valueResult_reserved (n : Byte) (f : ArgumentNumber → Result) :
    valueResult 0b11#2 n f = .fault .reservedTag := rfl

theorem withValue_eq_deliver (tag : Tag) (num : Byte) (f : ArgumentNumber → Result) (s : State) :
    withValue tag num f s = s.deliver (valueResult tag num f) := by
  rcases withValue_cases tag num f s with ⟨rfl, h⟩ | ⟨v, rfl, h⟩
  · rw [h, valueResult_reserved]
  · rw [h, valueResult_tagOf]

/-- The result that an instruction delivers. -/
def instrResult : Instr → Result
  | .parameter num => .value ⟨.parameter, num.setWidth 8⟩
  | .session num => .value ⟨.session, num.setWidth 8⟩
  | .handle num => .value ⟨.handle, num.setWidth 8⟩
  | .dec din => .value (codecDecode din)
  | .enc tag num => valueResult tag num fun a => .byte (codecEncode a)
  | .rnd tag num => valueResult tag num fun a => .text (codecRender a)
  | .chkb din => .bool (canonicalCheck din)
  | .chkv tag num => valueResult tag num fun a => .bool (roundTripCheck a)

/-- Running an instruction delivers its one result, and does nothing else. -/
theorem exec_eq_deliver (i : Instr) (s : State) : exec i s = .next (s.deliver (instrResult i)) := by
  cases i with
  | parameter num => rfl
  | session num => rfl
  | handle num => rfl
  | dec din => rfl
  | enc tag num => rw [exec, execEnc, withValue_eq_deliver, instrResult]
  | rnd tag num => rw [exec, execRnd, withValue_eq_deliver, instrResult]
  | chkb din => rfl
  | chkv tag num => rw [exec, execChkv, withValue_eq_deliver, instrResult]

/-! #### `execute` (R60), by RSV and OP -/

theorem execute_reservedBits {w : CmdWord} (hrsv : cmdRSV w ≠ 0b000#3) : execute w = .fault .reservedBits :=
  if_pos hrsv

theorem execute_dec {w : CmdWord} (hrsv : cmdRSV w = 0b000#3) (hop : cmdOP w = opDEC) :
    execute w = .value (codecDecode (cmdDIN w)) := by
  rw [cmdRSV] at hrsv
  rw [cmdOP, opDEC] at hop
  simp [execute, hrsv, hop, cmdDIN]

theorem execute_chkb {w : CmdWord} (hrsv : cmdRSV w = 0b000#3) (hop : cmdOP w = opCHKB) :
    execute w = .bool (canonicalCheck (cmdDIN w)) := by
  rw [cmdRSV] at hrsv
  rw [cmdOP, opCHKB] at hop
  simp [execute, hrsv, hop, cmdDIN, canonicalCheck]

theorem execute_enc {w : CmdWord} (hrsv : cmdRSV w = 0b000#3) (hop : cmdOP w = opENC) :
    execute w = valueResult (cmdTAG w) (cmdNUM w) fun a => .byte (codecEncode a) := by
  rw [cmdRSV] at hrsv
  rw [cmdOP, opENC] at hop
  cases hv : variantOf (w.extractLsb' 16 2) <;>
    simp [execute, hrsv, hop, cmdTAG, cmdNUM, valueResult, valueOperand, hv]

theorem execute_rnd {w : CmdWord} (hrsv : cmdRSV w = 0b000#3) (hop : cmdOP w = opRND) :
    execute w = valueResult (cmdTAG w) (cmdNUM w) fun a => .text (codecRender a) := by
  rw [cmdRSV] at hrsv
  rw [cmdOP, opRND] at hop
  cases hv : variantOf (w.extractLsb' 16 2) <;>
    simp [execute, hrsv, hop, cmdTAG, cmdNUM, valueResult, valueOperand, hv]

theorem execute_chkv {w : CmdWord} (hrsv : cmdRSV w = 0b000#3) (hop : cmdOP w = opCHKV) :
    execute w = valueResult (cmdTAG w) (cmdNUM w) fun a => .bool (roundTripCheck a) := by
  rw [cmdRSV] at hrsv
  rw [cmdOP, opCHKV] at hop
  cases hv : variantOf (w.extractLsb' 16 2) <;>
    simp [execute, hrsv, hop, cmdTAG, cmdNUM, valueResult, valueOperand, roundTripCheck, hv]

theorem execute_reservedOp {w : CmdWord} (hrsv : cmdRSV w = 0b000#3) (hop : 0b101#3 ≤ cmdOP w) :
    execute w = .fault .reservedOp := by
  have hne : ∀ op : OpCode, 0b101#3 ≤ op →
      op ≠ 0b000#3 ∧ op ≠ 0b011#3 ∧ op ≠ 0b001#3 ∧ op ≠ 0b010#3 ∧ op ≠ 0b100#3 := by decide
  rw [cmdRSV] at hrsv
  rw [cmdOP] at hop
  simp [execute, hrsv, hne _ hop]

/-! #### The answer to an input is what the decoder's reading of it gives -/

/-- The result of what the decoder reads: the instruction's, or the fault it names. -/
def decodedResult : Except FaultCode Instr → Result
  | .ok i => instrResult i
  | .error code => .fault code

theorem execute_eq_decodedResult (w : CmdWord) : execute w = decodedResult (decodeCommand w) := by
  rcases decodeCommand_cases w with
    ⟨hrsv, hd⟩ | ⟨hrsv, ⟨hop, hd⟩ | ⟨hop, hd⟩ | ⟨hop, hd⟩ | ⟨hop, hd⟩ | ⟨hop, hd⟩ | ⟨hop, hd⟩⟩
  · rw [hd, execute_reservedBits hrsv, decodedResult]
  · rw [hd, execute_dec hrsv hop, decodedResult, instrResult]
  · rw [hd, execute_enc hrsv hop, decodedResult, instrResult]
  · rw [hd, execute_rnd hrsv hop, decodedResult, instrResult]
  · rw [hd, execute_chkb hrsv hop, decodedResult, instrResult]
  · rw [hd, execute_chkv hrsv hop, decodedResult, instrResult]
  · rw [hd, execute_reservedOp hrsv hop, decodedResult]

theorem value_codecDecode_eq_instrResult (x : Byte) : .value (codecDecode x) = instrResult (decodeByte x) := by
  cases h0 : x.getLsbD 0 with
  | true => rw [codecDecode_parameter h0, decodeByte_parameter h0, instrResult, paramField]
  | false =>
    cases h5 : x.getLsbD 5 with
    | true => rw [codecDecode_session h0 h5, decodeByte_session h0 h5, instrResult, shortField]
    | false => rw [codecDecode_handle h0 h5, decodeByte_handle h0 h5, instrResult, shortField]

theorem answer_eq_decodedResult (x : Input) : answer x = decodedResult (decodeInput x) := by
  cases x with
  | byte x => exact value_codecDecode_eq_instrResult x
  | word w => exact execute_eq_decodedResult w

/-- Inputs that decode alike are answered alike. -/
theorem answer_congr {x y : Input} (h : decodeInput x = decodeInput y) : answer x = answer y := by
  rw [answer_eq_decodedResult, answer_eq_decodedResult, h]

/-! #### What is delivered is deliverable (R71, R75, R81) -/

theorem deliverable_codecRender (a : ArgumentNumber) : (Result.text (codecRender a)).deliverable = true := by
  simp only [Result.deliverable, Bool.and_eq_true, decide_eq_true_eq, List.all_eq_true]
  exact ⟨length_codecRender a, fun _ hb => isAscii_of_mem_codecRender hb⟩

theorem deliverable_valueResult (tag : Tag) (num : Byte) {f : ArgumentNumber → Result}
    (hf : ∀ a, (f a).deliverable = true) : (valueResult tag num f).deliverable = true := by
  rcases variantOf_cases tag with ⟨rfl, -⟩ | ⟨v, rfl, -⟩
  · rfl
  · rw [valueResult_tagOf]
    exact hf _

theorem deliverable_instrResult (i : Instr) : (instrResult i).deliverable = true := by
  cases i with
  | parameter num =>
    have hnum := num.isLt
    refine (fits_iff_le ⟨.parameter, _⟩).mpr (.inl ⟨rfl, ?_⟩)
    rw [BitVec.toNat_setWidth]
    omega
  | session num =>
    have hnum := num.isLt
    refine (fits_iff_le ⟨.session, _⟩).mpr (.inr ⟨Variant.noConfusion, ?_⟩)
    rw [BitVec.toNat_setWidth]
    omega
  | handle num =>
    have hnum := num.isLt
    refine (fits_iff_le ⟨.handle, _⟩).mpr (.inr ⟨Variant.noConfusion, ?_⟩)
    rw [BitVec.toNat_setWidth]
    omega
  | dec din => exact fits_codecDecode din
  | enc tag num => exact deliverable_valueResult tag num isCanonical_codecEncode
  | rnd tag num => exact deliverable_valueResult tag num deliverable_codecRender
  | chkb din => rfl
  | chkv tag num => exact deliverable_valueResult tag num fun _ => rfl

theorem deliverable_answer (x : Input) : (answer x).deliverable = true := by
  rw [answer_eq_decodedResult]
  cases decodeInput x with
  | ok i => exact deliverable_instrResult i
  | error code => rfl

end Sys2Proof.Machine
end

/-! ### Reserved words and their faults -/

section
namespace Sys2Proof

/-! #### The fields of a command word as numbers -/

theorem toNat_cmdRSV (w : CmdWord) : (cmdRSV w).toNat = w.toNat / 2 ^ 21 := by
  have hw := w.isLt
  rw [cmdRSV, BitVec.extractLsb'_toNat, Nat.shiftRight_eq_div_pow]
  omega

theorem toNat_cmdOP (w : CmdWord) : (cmdOP w).toNat = w.toNat / 2 ^ 18 % 8 := by
  rw [cmdOP, BitVec.extractLsb'_toNat, Nat.shiftRight_eq_div_pow]

theorem toNat_cmdTAG (w : CmdWord) : (cmdTAG w).toNat = w.toNat / 2 ^ 16 % 4 := by
  rw [cmdTAG, BitVec.extractLsb'_toNat, Nat.shiftRight_eq_div_pow]

theorem opReadsTag_iff (op : OpCode) : opReadsTag op = true ↔ op.toNat = 1 ∨ op.toNat = 2 ∨ op.toNat = 4 := by
  revert op; decide

theorem tagIsReserved_iff (tag : Tag) : tagIsReserved tag = true ↔ tag.toNat = 3 := by
  revert tag; decide

/-! #### Which words have which fault (R58, R96) -/

theorem reservedFault_reservedBits_iff (w : CmdWord) :
    reservedFault w = some .reservedBits ↔ cmdRSV w ≠ 0b000#3 := by
  rw [reservedFault]
  split_ifs <;> simp_all

theorem reservedFault_reservedOp_iff (w : CmdWord) :
    reservedFault w = some .reservedOp ↔ cmdRSV w = 0b000#3 ∧ 0b101#3 ≤ cmdOP w := by
  rw [reservedFault]
  split_ifs <;> simp_all

theorem not_reservedOp_of_opReadsTag {op : OpCode} (h : opReadsTag op = true) : ¬ 0b101#3 ≤ op := by
  revert h; revert op; decide

theorem reservedFault_reservedTag_iff (w : CmdWord) :
    reservedFault w = some .reservedTag ↔
      cmdRSV w = 0b000#3 ∧ opReadsTag (cmdOP w) = true ∧ tagIsReserved (cmdTAG w) = true := by
  have hop := @not_reservedOp_of_opReadsTag (cmdOP w)
  rw [reservedFault]
  split_ifs <;> simp_all

/-- A word that stands for no operation has the fault the decoder names. -/
theorem reservedFault_of_decodeCommand_error {w : CmdWord} {code : FaultCode}
    (h : decodeCommand w = .error code) : reservedFault w = some code := by
  rcases decodeCommand_cases w with
    ⟨hrsv, hd⟩ | ⟨hrsv, ⟨-, hd⟩ | ⟨-, hd⟩ | ⟨-, hd⟩ | ⟨-, hd⟩ | ⟨-, hd⟩ | ⟨hop, hd⟩⟩ <;>
    rw [hd] at h <;> cases h
  · exact (reservedFault_reservedBits_iff w).mpr hrsv
  · exact (reservedFault_reservedOp_iff w).mpr ⟨hrsv, hop⟩

/-- A word that stands for an operation is reserved exactly when its instruction is not well formed. -/
theorem reservedFault_of_decodeCommand_ok {w : CmdWord} {i : Instr} (h : decodeCommand w = .ok i) :
    reservedFault w = if i.wellFormed = false then some .reservedTag else none := by
  rcases decodeCommand_cases w with
    ⟨-, hd⟩ | ⟨hrsv, ⟨hop, hd⟩ | ⟨hop, hd⟩ | ⟨hop, hd⟩ | ⟨hop, hd⟩ | ⟨hop, hd⟩ | ⟨-, hd⟩⟩ <;>
    rw [hd] at h <;> cases h
  · simp [reservedFault, hrsv, hop, Instr.wellFormed, opReadsTag_iff, opDEC]
  · simp [reservedFault, hrsv, hop, Instr.wellFormed, opReadsTag_iff, opENC]
  · simp [reservedFault, hrsv, hop, Instr.wellFormed, opReadsTag_iff, opRND]
  · simp [reservedFault, hrsv, hop, Instr.wellFormed, opReadsTag_iff, opCHKB]
  · simp [reservedFault, hrsv, hop, Instr.wellFormed, opReadsTag_iff, opCHKV]

end Sys2Proof

namespace Sys2Proof.Machine

theorem valueResult_eq_fault_iff (tag : Tag) (num : Byte) {f : ArgumentNumber → Result} (code : FaultCode)
    (hf : ∀ a, f a ≠ .fault code) :
    valueResult tag num f = .fault code ↔ tagIsReserved tag = true ∧ code = .reservedTag := by
  rcases variantOf_cases tag with ⟨rfl, -⟩ | ⟨v, rfl, -⟩
  · simp [valueResult_reserved, tagIsReserved, eq_comm]
  · simp [valueResult_tagOf, tagIsReserved_tagOf, hf]

/-- An instruction delivers a fault exactly when it is not well formed, and then RESERVED_TAG. -/
theorem instrResult_eq_fault_iff (i : Instr) (code : FaultCode) :
    instrResult i = .fault code ↔ i.wellFormed = false ∧ code = .reservedTag := by
  cases i with
  | parameter num => simp [instrResult, Instr.wellFormed]
  | session num => simp [instrResult, Instr.wellFormed]
  | handle num => simp [instrResult, Instr.wellFormed]
  | dec din => simp [instrResult, Instr.wellFormed]
  | enc tag num => simp [instrResult, Instr.wellFormed, valueResult_eq_fault_iff]
  | rnd tag num => simp [instrResult, Instr.wellFormed, valueResult_eq_fault_iff]
  | chkb din => simp [instrResult, Instr.wellFormed]
  | chkv tag num => simp [instrResult, Instr.wellFormed, valueResult_eq_fault_iff]

/-- A command word is answered by a fault exactly when it is reserved, and then by its own fault. -/
theorem answer_eq_fault_iff (w : CmdWord) (code : FaultCode) :
    answer (.word w) = .fault code ↔ reservedFault w = some code := by
  rw [answer_eq_decodedResult, decodeInput]
  cases hd : decodeCommand w with
  | error e => rw [reservedFault_of_decodeCommand_error hd, decodedResult, Result.fault.injEq, Option.some_inj]
  | ok i =>
    rw [reservedFault_of_decodeCommand_ok hd, decodedResult, instrResult_eq_fault_iff]
    cases i.wellFormed <;> simp [eq_comm]

end Sys2Proof.Machine
end

/-! ### A step and a run: every input issued is answered, in order -/

section
namespace Sys2Proof.Machine

/-- The state in which the inputs `cs` have been issued and answered, in order, and `rest` is still to be issued. -/
def State.afterAnswering (cs rest : List Issue) (s : State) : State :=
  { pending := rest, served := s.served ++ cs, trace := s.trace ++ cs.map fun c => answer c.input }

@[simp] theorem State.afterAnswering_pending (cs rest : List Issue) (s : State) :
    (s.afterAnswering cs rest).pending = rest := rfl
@[simp] theorem State.afterAnswering_served (cs rest : List Issue) (s : State) :
    (s.afterAnswering cs rest).served = s.served ++ cs := rfl
@[simp] theorem State.afterAnswering_trace (cs rest : List Issue) (s : State) :
    (s.afterAnswering cs rest).trace = s.trace ++ cs.map fun c => answer c.input := rfl

theorem State.afterAnswering_nil (s : State) : s.afterAnswering [] s.pending = s := by
  simp [State.afterAnswering]

theorem State.afterAnswering_cons (c : Issue) (cs rest : List Issue) (s : State) :
    (s.afterAnswering [c] (cs ++ rest)).afterAnswering cs rest = s.afterAnswering (c :: cs) rest := by
  simp [State.afterAnswering]

/-- A step answers the next input by R60's algorithm (R66 for a bare byte), and does nothing else. -/
theorem step_of_pending {s : State} {c : Issue} {rest : List Issue} (hp : s.pending = c :: rest) :
    step s = .next (s.afterAnswering [c] rest) := by
  have hanswer := answer_eq_decodedResult c.input
  rcases step_cases s with ⟨hnil, -⟩ | ⟨c', rest', hp', ⟨code, hd, hs⟩ | ⟨i, hd, hs⟩⟩
  · rw [hnil] at hp
    cases hp
  · obtain ⟨rfl, rfl⟩ := List.cons.inj (hp.symm.trans hp')
    rw [hd, decodedResult] at hanswer
    rw [hs, State.afterAnswering, List.map_singleton, hanswer]
    rfl
  · obtain ⟨rfl, rfl⟩ := List.cons.inj (hp.symm.trans hp')
    rw [hd, decodedResult] at hanswer
    rw [hs, exec_eq_deliver, State.afterAnswering, List.map_singleton, hanswer]
    rfl

theorem step_of_pending_nil {s : State} (hp : s.pending = []) : step s = .fault .noCommand := by
  rw [step, hp]

/-- The only way to a next state: an input was pending, and it was answered. -/
theorem exists_pending_of_step {s t : State} (h : step s = .next t) :
    ∃ c rest, s.pending = c :: rest ∧ t = s.afterAnswering [c] rest := by
  cases hp : s.pending with
  | nil =>
    rw [step_of_pending_nil hp] at h
    cases h
  | cons c rest =>
    rw [step_of_pending hp] at h
    exact ⟨c, rest, rfl, (Host.Outcome.next.inj h).symm⟩

/-- A run over the first inputs pending answers them, in order. -/
theorem run_of_pending (cs : List Issue) {rest : List Issue} {s : State} (hp : s.pending = cs ++ rest) :
    Host.Core.run Sys2Proof.core cs.length s = .next (s.afterAnswering cs rest) := by
  induction cs generalizing s with
  | nil =>
    rw [List.nil_append] at hp
    rw [List.length_nil, run_zero, ← hp, State.afterAnswering_nil]
  | cons c cs ih =>
    rw [List.length_cons, run_succ, step_of_pending hp]
    exact (ih (State.afterAnswering_pending _ _ _)).trans (by rw [State.afterAnswering_cons])

theorem run_pending_length (s : State) :
    Host.Core.run Sys2Proof.core s.pending.length s = .next (s.afterAnswering s.pending []) :=
  run_of_pending s.pending (List.append_nil _).symm

/-- A step from reset on one input. -/
theorem step_reset_enqueue (c : Issue) :
    step (State.reset.enqueue c) = .next { pending := [], served := [c], trace := [answer c.input] } :=
  step_of_pending rfl

/-- Every run adds to the trace, and drops nothing from it. -/
theorem trace_prefix_of_run {n : Nat} {s t : State} (h : Host.Core.run Sys2Proof.core n s = .next t) :
    s.trace <+: t.trace := by
  induction n generalizing s with
  | zero =>
    rw [run_zero] at h
    rw [Host.Outcome.next.inj h]
  | succ n ih =>
    rw [run_succ] at h
    cases hs : step s with
    | next u =>
      rw [hs] at h
      obtain ⟨c, rest, -, rfl⟩ := exists_pending_of_step hs
      exact (List.prefix_append _ _).trans (ih h)
    | fault r =>
      rw [hs] at h
      cases h
    | refused r =>
      rw [hs] at h
      cases h

/-! #### The results of one host -/

/-- Of the answers to further inputs, a host receives those to its own. -/
theorem resultsOf_afterAnswering {s : State} (hlen : s.served.length = s.trace.length) (h : Nat)
    (cs rest : List Issue) :
    (s.afterAnswering cs rest).resultsOf h =
      s.resultsOf h ++ (cs.filter fun c => c.host == h).map fun c => answer c.input := by
  simp only [State.resultsOf, State.afterAnswering_served, State.afterAnswering_trace, List.zip_append hlen,
    List.filter_append, List.map_append, ← List.map_prod_left_eq_zip, List.filter_map, List.map_map]
  rfl

/-- After an answer, a host has succeeded if it had, and the answer was another host's or no Fault. -/
theorem hostSucceeded_afterAnswering {s : State} (hlen : s.served.length = s.trace.length) (h : Nat)
    (c : Issue) (rest : List Issue) :
    (s.afterAnswering [c] rest).hostSucceeded h =
      (s.hostSucceeded h && (c.host != h || !(answer c.input).isFault)) := by
  rw [State.hostSucceeded, resultsOf_afterAnswering hlen, List.all_append, State.hostSucceeded]
  cases hc : c.host == h with
  | true => simp [hc, bne]
  | false => simp [hc, bne]

/-! #### The bus of the last answer -/

theorem readBus_of_trace_nil {s : State} (ht : s.trace = []) (h : Nat) : s.readBus h = .error .noResult := by
  rw [State.readBus, ht]
  cases s.served.getLast? <;> rfl

theorem readBus_afterAnswering (s : State) (c : Issue) (rest : List Issue) (h : Nat) :
    (s.afterAnswering [c] rest).readBus h =
      if c.host = h then .ok (answer c.input).toBus else .error .noResult := by
  simp [State.readBus]

end Sys2Proof.Machine
end

/-! ### The statements of the family: the step and what it delivers -/

section
namespace Sys2Proof.Machine

/-- Settles O31: a step adds one input and its answer. -/
theorem stepKeepsTheTraceAnswering : Obligations.StepKeepsTheTraceAnswering := by
  intro s s' hinv h
  obtain ⟨c, rest, -, rfl⟩ := exists_pending_of_step h
  rw [State.answersItsCommands] at hinv ⊢
  rw [State.afterAnswering_trace, State.afterAnswering_served, List.map_append, hinv]

/-- Settles O33: a step adds an answer, and every answer is deliverable. -/
theorem stepKeepsTheTraceDeliverable : Obligations.StepKeepsTheTraceDeliverable := by
  intro s s' hinv h r hr
  obtain ⟨c, rest, -, rfl⟩ := exists_pending_of_step h
  rcases List.mem_append.mp hr with hr | hr
  · exact hinv r hr
  · rw [List.mem_singleton.mp hr]
    exact deliverable_answer c.input

/-- Settles O37: a step adds one input and one result. -/
theorem stepKeepsOneResultPerCommand : Obligations.StepKeepsOneResultPerCommand := by
  intro s s' hlen h
  obtain ⟨c, rest, -, rfl⟩ := exists_pending_of_step h
  simp [hlen]

/-- Settles O32: at reset both lists are empty. -/
theorem resetTraceAnswers : Obligations.ResetTraceAnswers := rfl

/-- Settles O34: at reset the trace is empty. -/
theorem resetTraceIsDeliverable : Obligations.ResetTraceIsDeliverable := by
  intro r hr
  cases hr

/-- Settles O9: the number field zero-extended is the same number in 8 bits. -/
theorem byteFormatsDeliverTheirValue : Obligations.ByteFormatsDeliverTheirValue := by
  intro s
  simp only [BitVec.ofNat_toNat]
  exact ⟨fun n => exec_eq_deliver (.parameter n) s, fun n => exec_eq_deliver (.session n) s,
    fun n => exec_eq_deliver (.handle n) s⟩

/-- Settles O16: every other tag is that of a variant, and tag 11 gives the fault as the result of each command. -/
theorem reservedTagDeliversItsFault : Obligations.ReservedTagDeliversItsFault := by
  refine ⟨fun t => ?_, fun n s => ⟨?_, ?_, ?_⟩⟩
  · rcases variantOf_cases t with ⟨ht, -⟩ | ⟨v, ht, -⟩
    · exact .inl ht
    · exact .inr ⟨v, ht⟩
  · rw [exec_eq_deliver, instrResult, valueResult_reserved, State.deliver]
  · rw [exec_eq_deliver, instrResult, valueResult_reserved, State.deliver]
  · rw [exec_eq_deliver, instrResult, valueResult_reserved, State.deliver]

/-- Settles O17: the result of an instruction is a function of the instruction alone. -/
theorem everyInstructionDeliversOneResultAndNothingElse :
    Obligations.EveryInstructionDeliversOneResultAndNothingElse :=
  fun i => ⟨instrResult i, exec_eq_deliver i⟩

/-- Settles O24: by what the decoder reads of the next input. -/
theorem stepRunsTheDecodedInstruction : Obligations.StepRunsTheDecodedInstruction := by
  intro s c rest hp
  refine ⟨fun i hd => ?_, fun code hd => ?_⟩
  · rw [step, hp]
    simp only [hd]
    rfl
  · rw [step, hp]
    simp only [hd]
    rfl

/-- Settles O25: by whether anything is pending. -/
theorem stepStopsExactlyWhenNothingIsIssued : Obligations.StepStopsExactlyWhenNothingIsIssued := by
  intro s
  cases hp : s.pending with
  | nil => exact .inl ⟨rfl, step_of_pending_nil hp⟩
  | cons c rest => exact .inr ⟨List.cons_ne_nil _ _, _, step_of_pending hp⟩

/-- Settles O26: the decoder and the meanings give what R60's algorithm gives. -/
theorem stepDeliversTheAnswerOfTheAlgorithm : Obligations.StepDeliversTheAnswerOfTheAlgorithm :=
  fun _ _ _ hp => step_of_pending hp

/-- Settles O27: a word is answered by the fault it is reserved for, which its fields decide as numbers. -/
theorem reservedWordsDeliverTheirFaultByPriority : Obligations.ReservedWordsDeliverTheirFaultByPriority := by
  intro s h w rest hp
  refine ⟨answer (.word w), step_of_pending hp, ?_, ?_, ?_⟩
  · rw [answer_eq_fault_iff, reservedFault_reservedBits_iff, Ne, ← BitVec.toNat_inj, toNat_cmdRSV]
    rfl
  · rw [answer_eq_fault_iff, reservedFault_reservedOp_iff, ← BitVec.toNat_inj, BitVec.le_def, toNat_cmdRSV,
      toNat_cmdOP]
    simp only [BitVec.toNat_ofNat]
    omega
  · rw [answer_eq_fault_iff, reservedFault_reservedTag_iff, opReadsTag_iff, tagIsReserved_iff, ← BitVec.toNat_inj,
      toNat_cmdRSV, toNat_cmdOP, toNat_cmdTAG]
    simp only [BitVec.toNat_ofNat]
    omega

/-- Two words that decode alike give the same result, from states that differ in the next input only. -/
theorem step_words_of_decodeCommand_eq (s : State) (h : Nat) (rest : List Issue) {w w' : CmdWord}
    (hd : decodeCommand w' = decodeCommand w) :
    ∃ r : Result,
      step { s with pending := ⟨h, .word w⟩ :: rest } =
        .next { pending := rest, served := s.served ++ [⟨h, .word w⟩], trace := s.trace ++ [r] } ∧
      step { s with pending := ⟨h, .word w'⟩ :: rest } =
        .next { pending := rest, served := s.served ++ [⟨h, .word w'⟩], trace := s.trace ++ [r] } := by
  have hanswer : answer (.word w') = answer (.word w) := answer_congr hd
  exact ⟨answer (.word w), step_of_pending rfl, hanswer ▸ step_of_pending rfl⟩

/-- Settles O28: for each operation, the decoder drops the fields that it does not read. -/
theorem unreadFieldsChangeNoResult : Obligations.UnreadFieldsChangeNoResult := by
  rintro s h rest op tag tag' num num' din din' (⟨rfl | rfl, rfl⟩ | ⟨rfl | rfl | rfl, rfl, rfl⟩) <;>
    apply step_words_of_decodeCommand_eq
  · rw [decodeCommand_dec, decodeCommand_dec]
  · rw [decodeCommand_chkb, decodeCommand_chkb]
  · rw [decodeCommand_enc, decodeCommand_enc]
  · rw [decodeCommand_rnd, decodeCommand_rnd]
  · rw [decodeCommand_chkv, decodeCommand_chkv]

/-- Settles O29: the function is `answer`. -/
theorem resultIsAFunctionOfTheCommandAlone : Obligations.ResultIsAFunctionOfTheCommandAlone :=
  ⟨answer, fun _ _ _ hp => step_of_pending hp⟩

/-- Settles O30: after reset as in every state, the result is the input's answer. -/
theorem resultIsThatOfTheFirstCommandAfterReset : Obligations.ResultIsThatOfTheFirstCommandAfterReset := by
  intro c t h
  rw [step_reset_enqueue] at h
  cases h
  exact ⟨answer c.input, rfl, fun _ _ hp => step_of_pending hp⟩

end Sys2Proof.Machine
end

/-! ### The statements of the family: runs and hosts -/

section
namespace Sys2Proof.Machine

/-- Settles O35: the run over all that is pending answers it, and one step more finds nothing to issue. -/
theorem runAnswersEveryCommandAndEnds : Obligations.RunAnswersEveryCommandAndEnds := by
  intro s
  refine ⟨run_pending_length s, fun k => ?_⟩
  rw [Nat.add_assoc, Nat.add_comm 1 k, run_add, run_pending_length]
  simp only
  rw [run_succ, step_of_pending_nil (State.afterAnswering_pending _ _ _)]

/-- Settles O36: alone or among others, an input is given its answer, and goes to its own host. -/
theorem interleavingChangesNoResult : Obligations.InterleavingChangesNoResult :=
  ⟨answer, step_reset_enqueue, fun s hlen =>
    ⟨_, run_pending_length s, rfl, fun h => resultsOf_afterAnswering hlen h s.pending []⟩⟩

/-- Settles O38: both times the result is the input's answer. -/
theorem sameCommandTwiceGivesTheSameResult : Obligations.SameCommandTwiceGivesTheSameResult := by
  intro s h h' x between rest hp
  have hrun := run_of_pending (⟨h, x⟩ :: (between ++ [⟨h', x⟩])) (rest := rest) (s := s) (by simp [hp])
  refine ⟨answer x, between.map fun c => answer c.input, s.afterAnswering (⟨h, x⟩ :: (between ++ [⟨h', x⟩])) rest,
    List.length_map _, ?_, rfl, ?_⟩
  · simpa using hrun
  · simp

/-- Settles O39: the trace after a run begins with the trace before it, and any fault in it. -/
theorem traceNeverForgetsAFault : Obligations.TraceNeverForgetsAFault := by
  intro n s t h
  have hprefix := trace_prefix_of_run h
  refine ⟨hprefix, fun hfailed => ?_⟩
  obtain ⟨rs, hrs⟩ := hprefix
  rw [State.succeeded] at hfailed ⊢
  rw [← hrs, List.all_append, hfailed, Bool.false_and]

/-- Settles O48: a host's own answer decides its success, and no other host's answer changes it. -/
theorem hostSuccessDependsOnItsOwnResultsAlone : Obligations.HostSuccessDependsOnItsOwnResultsAlone := by
  intro s c rest hlen hp
  refine ⟨_, step_of_pending hp, fun h hne => ?_, ?_⟩
  · rw [hostSucceeded_afterAnswering hlen]
    simp [hne.symm]
  · rw [hostSucceeded_afterAnswering hlen]
    simp

end Sys2Proof.Machine
end

/-! ### The result bus -/

section
namespace Sys2Proof.Machine

theorem faultOfCode_codeOf (code : FaultCode) : faultOfCode (codeOf code) = some code := by
  cases code <;> rfl

theorem tagOf_ne_reserved (v : Variant) : tagOf v ≠ 0b11#2 := by
  cases v <;> decide

theorem codeOf_ne_zero (code : FaultCode) : codeOf code ≠ 0#2 := by
  cases code <;> decide

/-- Up to 36 text bytes are the text, then zeros. -/
theorem getElem_padText (t : Text) (k : Fin 36) :
    (padText t)[k] = if k.val < t.length then t.getD k.val 0 else 0x00#8 := by
  obtain ⟨k, hk⟩ := k
  simp only [padText, Fin.getElem_fin, Vector.getElem_mk, List.getElem_toArray, List.getElem_take]
  by_cases hlt : k < t.length
  · simp [hlt]
  · rw [List.getElem_append_right (Nat.le_of_not_lt hlt), List.getElem_replicate, if_neg hlt]

/-- The first bytes of the padded text are the text. -/
theorem take_padText {t : Text} (ht : t.length ≤ 36) : (padText t).toList.take t.length = t := by
  simp [padText, List.take_take, Nat.min_eq_left ht]

/-- RLEN holds the length of every text that fits RTXT. -/
theorem toNat_length_ofNat {t : Text} (ht : t.length ≤ 36) : (BitVec.ofNat 6 t.length).toNat = t.length := by
  rw [BitVec.toNat_ofNat]
  omega

theorem length_of_deliverable_text {t : Text} (h : (Result.text t).deliverable = true) :
    31 ≤ t.length ∧ t.length ≤ 36 := by
  simp only [Result.deliverable, Bool.and_eq_true, decide_eq_true_eq] at h
  obtain ⟨hlength, -⟩ := h
  exact hlength

/-- Settles O40: kind by kind, each output holds its part of the result; a text has its length in RLEN. -/
theorem busCarriesTheResult : Obligations.BusCarriesTheResult := by
  intro r hr
  cases r with
  | value a => simp [Result.toBus, Bus.toResult, variantOf_tagOf]
  | byte b => simp [Result.toBus, Bus.toResult]
  | text t =>
    obtain ⟨-, ht⟩ := length_of_deliverable_text hr
    simp [Result.toBus, Bus.toResult, toNat_length_ofNat ht, take_padText ht]
  | bool ok => cases ok <;> rfl
  | fault code => simp [Result.toBus, Bus.toResult, faultOfCode_codeOf]

/-- Settles O41: the bus of each kind by definition; a deliverable text fits RLEN and RTXT. -/
theorem busDrivesOnlyTheDeliveredKind : Obligations.BusDrivesOnlyTheDeliveredKind := by
  refine ⟨fun a => ⟨rfl, tagOf_ne_reserved _⟩, fun b => rfl, fun t => ⟨_, _, rfl, fun ht => ?_⟩, fun ok => ?_,
    fun code => ⟨rfl, codeOf_ne_zero code⟩, rfl, rfl, rfl, rfl⟩
  · obtain ⟨h31, h36⟩ := length_of_deliverable_text ht
    rw [toNat_length_ofNat h36]
    exact ⟨rfl, h31, h36, getElem_padText t⟩
  · cases ok <;> rfl

/-- Settles O42: after a step the last input and the last result are those of the step. -/
theorem busIsReadOnlyAsTheAnswerToAnOwnCommand : Obligations.BusIsReadOnlyAsTheAnswerToAnOwnCommand := by
  refine ⟨fun h s ht => readBus_of_trace_nil ht h, fun s c rest hp =>
    ⟨s.afterAnswering [c] rest, step_of_pending hp, ?_, fun h hne => ?_⟩⟩
  · rw [readBus_afterAnswering, if_pos rfl]
  · rw [readBus_afterAnswering, if_neg hne.symm]

end Sys2Proof.Machine
end

/-! ### The tokens of a line of words, blanks and commas -/

section
namespace Sys2Proof.Machine

/-- A text that is one word of a line. -/
def isWord (t : Text) : Bool := !t.isEmpty && t.all isWordChar

theorem isWord_iff (t : Text) : isWord t = true ↔ t ≠ [] ∧ ∀ b ∈ t, isWordChar b = true := by
  simp [isWord]

/-- The characters of a word are added to what was read before them, whatever follows. -/
theorem tokensFrom_word_append (t acc rest : Text) (h : t.all isWordChar = true) :
    tokensFrom acc (t ++ rest) = tokensFrom (acc ++ t) rest := by
  induction t generalizing acc with
  | nil => simp
  | cons b t ih =>
    rw [List.all_cons, Bool.and_eq_true] at h
    obtain ⟨hb, ht⟩ := h
    simp only [isWordChar, Bool.and_eq_true, bne_iff_ne, Bool.not_eq_true'] at hb
    simp [tokensFrom, hb, ih _ ht]

theorem tokens_isWord {t : Text} (h : isWord t = true) : tokens t = [.word t] := by
  rw [isWord, Bool.and_eq_true, Bool.not_eq_true'] at h
  obtain ⟨hne, hall⟩ := h
  rw [tokens, tokensFrom_word t [] hall, List.nil_append, endWord, hne]
  rfl

theorem tokens_isWord_space {t : Text} (h : isWord t = true) (rest : Text) :
    tokens (t ++ 0x20#8 :: rest) = .word t :: tokens rest := by
  rw [isWord, Bool.and_eq_true, Bool.not_eq_true'] at h
  obtain ⟨hne, hall⟩ := h
  simp [tokens, tokensFrom_word_append t [] _ hall, tokensFrom, isBlank, endWord, List.isEmpty_eq_false_iff.mp hne]

theorem tokens_isWord_comma {t : Text} (h : isWord t = true) (rest : Text) :
    tokens (t ++ 0x2C#8 :: rest) = .word t :: .comma :: tokens rest := by
  rw [isWord, Bool.and_eq_true, Bool.not_eq_true'] at h
  obtain ⟨hne, hall⟩ := h
  simp [tokens, tokensFrom_word_append t [] _ hall, tokensFrom, isBlank, endWord, List.isEmpty_eq_false_iff.mp hne]

theorem tokens_space (rest : Text) : tokens (0x20#8 :: rest) = tokens rest := rfl

/-- The tokens of a mnemonic and one operand. -/
theorem tokens_oneOperand {m t : Text} (hm : isWord m = true) (ht : isWord t = true) :
    tokens (m ++ ascii " " ++ t) = [.word m, .word t] := by
  rw [List.append_assoc]
  exact (tokens_isWord_space hm t).trans (by rw [tokens_isWord ht])

/-- The tokens of a mnemonic and two operands. -/
theorem tokens_twoOperands {m v t : Text} (hm : isWord m = true) (hv : isWord v = true) (ht : isWord t = true) :
    tokens (m ++ ascii " " ++ v ++ ascii ", " ++ t) = [.word m, .word v, .comma, .word t] := by
  simp only [List.append_assoc]
  calc tokens (m ++ 0x20#8 :: (v ++ 0x2C#8 :: 0x20#8 :: t))
      = .word m :: tokens (v ++ 0x2C#8 :: 0x20#8 :: t) := tokens_isWord_space hm _
    _ = .word m :: .word v :: .comma :: tokens t := by rw [tokens_isWord_comma hv, tokens_space]
    _ = [.word m, .word v, .comma, .word t] := by rw [tokens_isWord ht]

/-! #### Literals (R62) -/

theorem isWordChar_digit {d : Nat} (hd : d < 10) : isWordChar (digit d) = true := by
  interval_cases d <;> rfl

theorem digitValue_digit {d : Nat} (hd : d < 10) : digitValue (digit d) = some d := by
  interval_cases d <;> rfl

theorem readDigits_digit {base d : Nat} (hd : d < 10) (hb : d < base) (acc : Nat) (t : Text) :
    readDigits base acc (digit d :: t) = readDigits base (acc * base + d) t := by
  simp [readDigits, digitValue_digit hd, hb]

theorem digit_ne_baseMark {d : Nat} (hd : d < 10) : digit d ≠ 0x78#8 ∧ digit d ≠ 0x62#8 := by
  interval_cases d <;> decide

theorem literalValue_two_digits {d e : Nat} (he : e < 10) (t : Text) :
    literalValue (digit d :: digit e :: t) = readDigits 10 0 (digit d :: digit e :: t) := by
  simp [literalValue, digit_ne_baseMark he, readNumber]

/-- A number written in decimal is a literal of that value. -/
theorem literalValue_decimal (b : Byte) : literalValue (decimal b) = some b.toNat := by
  have hlt := b.isLt
  rcases decimal_cases b with ⟨h, hd⟩ | ⟨h, h', hd⟩ | ⟨h, hd⟩
  · rw [hd]
    exact (readDigits_digit h h 0 []).trans (congrArg some (by omega))
  · have h1 : b.toNat / 10 < 10 := by omega
    have h0 : b.toNat % 10 < 10 := by omega
    rw [hd, literalValue_two_digits h0, readDigits_digit h1 h1, readDigits_digit h0 h0, readDigits]
    exact congrArg some (by omega)
  · have h2 : b.toNat / 100 < 10 := by omega
    have h1 : b.toNat / 10 % 10 < 10 := by omega
    have h0 : b.toNat % 10 < 10 := by omega
    rw [hd, literalValue_two_digits h1, readDigits_digit h2 h2, readDigits_digit h1 h1, readDigits_digit h0 h0,
      readDigits]
    exact congrArg some (by omega)

/-- A byte printed as two hexadecimal digits is a literal of its value. -/
theorem literalValue_hex2 (b : Byte) : literalValue (hex2 b) = some b.toNat := by
  have hread : literalValue (hex2 b) =
      readDigits 16 0 [hexDigit (b.extractLsb' 4 4), hexDigit (b.extractLsb' 0 4)] := rfl
  have hlt := b.isLt
  rw [hread, readDigits_hexDigit, readDigits_hexDigit, readDigits]
  simp only [BitVec.extractLsb'_toNat, Nat.shiftRight_eq_div_pow]
  exact congrArg some (by omega)

/-- A word printed as six hexadecimal digits is a literal of its value. -/
theorem literalValue_hex6 (w : CmdWord) : literalValue (hex6 w) = some w.toNat := by
  have hread : literalValue (hex6 w) =
      readDigits 16 0 [hexDigit (w.extractLsb' 20 4), hexDigit (w.extractLsb' 16 4), hexDigit (w.extractLsb' 12 4),
        hexDigit (w.extractLsb' 8 4), hexDigit (w.extractLsb' 4 4), hexDigit (w.extractLsb' 0 4)] := rfl
  have hlt := w.isLt
  rw [hread, readDigits_hexDigit, readDigits_hexDigit, readDigits_hexDigit, readDigits_hexDigit, readDigits_hexDigit,
    readDigits_hexDigit, readDigits]
  simp only [BitVec.extractLsb'_toNat, Nat.shiftRight_eq_div_pow]
  exact congrArg some (by omega)

/-- The low `k` bits of a byte as binary digits, highest first. -/
def binaryDigits (b : Byte) (k : Nat) : Text :=
  (List.range k).map fun j => digit (if b.getLsbD (k - 1 - j) then 1 else 0)

theorem binaryDigits_succ (b : Byte) (k : Nat) :
    binaryDigits b (k + 1) = digit (b.getLsbD k).toNat :: binaryDigits b k := by
  rw [binaryDigits, List.range_succ_eq_map, List.map_cons, List.map_map, binaryDigits]
  refine congrArg₂ List.cons ?_ (List.map_congr_left fun j hj => ?_)
  · cases h : b.getLsbD k <;> simp [-BitVec.getLsbD_eq_getElem, h]
  · rw [Function.comp_apply, Nat.add_sub_cancel, Nat.sub_sub, Nat.succ_eq_one_add]

theorem readDigits_binaryDigits (b : Byte) (k acc : Nat) :
    readDigits 2 acc (binaryDigits b k) = some (acc * 2 ^ k + b.toNat % 2 ^ k) := by
  induction k generalizing acc with
  | zero => simp [binaryDigits, readDigits, Nat.mod_one]
  | succ k ih =>
    have hbit : (b.getLsbD k).toNat < 2 := Bool.toNat_lt _
    rw [binaryDigits_succ, readDigits_digit (by omega) hbit, ih, Nat.mod_pow_succ, BitVec.getLsbD, Nat.toNat_testBit]
    exact congrArg some (by ring)

/-- A byte written as eight binary digits is a literal of its value. -/
theorem literalValue_binary (b : Byte) : literalValue (ascii "0b" ++ binaryDigits b 8) = some b.toNat := by
  have hread : literalValue (ascii "0b" ++ binaryDigits b 8) = readDigits 2 0 (binaryDigits b 8) := rfl
  rw [hread, readDigits_binaryDigits, Nat.zero_mul, Nat.zero_add, Nat.mod_eq_of_lt b.isLt]

theorem isWord_decimal (b : Byte) : isWord (decimal b) = true := by
  refine (isWord_iff _).mpr ⟨List.ne_nil_of_length_pos (length_decimal_bounds b).1, fun c hc => ?_⟩
  obtain ⟨d, hd, rfl⟩ := exists_digit_of_mem_decimal hc
  exact isWordChar_digit hd

theorem isWord_hex2 (b : Byte) : isWord (hex2 b) = true := by
  have hmark : isWordChar 0x30#8 = true ∧ isWordChar 0x78#8 = true := by decide
  simp [isWord, hex2, ascii, hexDigit_isWordChar, hmark]

theorem isWord_hex6 (w : CmdWord) : isWord (hex6 w) = true := by
  have hmark : isWordChar 0x30#8 = true ∧ isWordChar 0x78#8 = true := by decide
  simp [isWord, hex6, ascii, hexDigit_isWordChar, hmark]

theorem isWord_binary (b : Byte) : isWord (ascii "0b" ++ binaryDigits b 8) = true := by
  refine (isWord_iff _).mpr ⟨List.cons_ne_nil _ _, fun c hc => ?_⟩
  rcases List.mem_append.mp hc with hc | hc
  · have hmark : ∀ c ∈ ascii "0b", isWordChar c = true := by decide
    exact hmark c hc
  · obtain ⟨j, -, rfl⟩ := List.mem_map.mp hc
    exact isWordChar_digit (by split <;> decide)

theorem isWord_variantLetter (v : Variant) : isWord (variantLetter v) = true := by
  cases v <;> rfl

theorem byteOperand_of_literalValue {t : Text} {b : Byte} (h : literalValue t = some b.toNat) :
    byteOperand t = .ok b := by
  have hlt := b.isLt
  simp [byteOperand, h, show b.toNat ≤ 255 by omega]

theorem byteOperand_tooLarge {t : Text} {n : Nat} (h : literalValue t = some n) (hn : 255 < n) :
    byteOperand t = .error .valueOutOfRange := by
  simp [byteOperand, h, Nat.not_le.mpr hn]

end Sys2Proof.Machine
end

/-! ### Assembling a line, mnemonic by mnemonic -/

section
namespace Sys2Proof.Machine

theorem assembleTokens_dec (operands : List Token) :
    assembleTokens (.word (ascii "DEC") :: operands) = (assembleByteCommand opDEC operands).map some := rfl

theorem assembleTokens_chkb (operands : List Token) :
    assembleTokens (.word (ascii "CHKB") :: operands) = (assembleByteCommand opCHKB operands).map some := rfl

theorem assembleTokens_enc (operands : List Token) :
    assembleTokens (.word (ascii "ENC") :: operands) = (assembleValueCommand opENC operands).map some := rfl

theorem assembleTokens_rnd (operands : List Token) :
    assembleTokens (.word (ascii "RND") :: operands) = (assembleValueCommand opRND operands).map some := rfl

theorem assembleTokens_chkv (operands : List Token) :
    assembleTokens (.word (ascii "CHKV") :: operands) = (assembleValueCommand opCHKV operands).map some := rfl

theorem assembleTokens_raw (operands : List Token) :
    assembleTokens (.word (ascii ".word") :: operands) = (assembleRaw operands).map some := rfl

theorem assembleByteCommand_word (op : OpCode) (t : Text) :
    assembleByteCommand op [.word t] = (byteOperand t).map fun din => assembleFields op 0#2 0#8 din := rfl

theorem assembleValueCommand_letter (op : OpCode) (v : Variant) (t : Text) :
    assembleValueCommand op [.word (variantLetter v), .comma, .word t] =
      (byteOperand t).map fun num => assembleFields op (tagOf v) num 0#8 := by
  rw [assembleValueCommand, variantOperand_letter]

/-- A line of a mnemonic that reads DIN and a literal. -/
theorem assembleLine_byteCommand {m t : Text} {op : OpCode} {din : Byte} (hm : isWord m = true)
    (hasm : ∀ operands, assembleTokens (.word m :: operands) = (assembleByteCommand op operands).map some)
    (ht : isWord t = true) (hdin : byteOperand t = .ok din) :
    assembleLine (m ++ ascii " " ++ t) = .ok (some (assembleFields op 0#2 0#8 din)) := by
  rw [assembleLine, tokens_oneOperand hm ht, hasm, assembleByteCommand_word, hdin]
  rfl

/-- A line of a mnemonic that reads TAG and NUM, a variant letter and a literal. -/
theorem assembleLine_valueCommand {m t : Text} {op : OpCode} {num : Byte} (hm : isWord m = true)
    (hasm : ∀ operands, assembleTokens (.word m :: operands) = (assembleValueCommand op operands).map some)
    (v : Variant) (ht : isWord t = true) (hnum : byteOperand t = .ok num) :
    assembleLine (m ++ ascii " " ++ variantLetter v ++ ascii ", " ++ t) =
      .ok (some (assembleFields op (tagOf v) num 0#8)) := by
  rw [assembleLine, tokens_twoOperands hm (isWord_variantLetter v) ht, hasm, assembleValueCommand_letter, hnum]
  rfl

/-- Every word, reserved or not, is assembled from its `.word` line. -/
theorem assembleLine_spellRaw (w : CmdWord) : assembleLine (spellRaw w) = .ok (some w) := by
  have htokens : tokens (spellRaw w) = [.word (ascii ".word"), .word (hex6 w)] :=
    tokens_oneOperand (m := ascii ".word") rfl (isWord_hex6 w)
  rw [assembleLine, htokens, assembleTokens_raw, assembleRaw, literalValue_hex6]
  simp [w.isLt, Except.map]

/-! #### Disassembled words -/

/-- A reserved word is printed as `.word` (R65). -/
theorem disassemble_of_reservedFault {w : CmdWord} {code : FaultCode} (h : reservedFault w = some code) :
    disassemble w = spellRaw w := by
  have hvalue : ∀ (mnemonic : String) (tag : Tag) (num : Byte), tagIsReserved tag = true →
      spellValueCommand mnemonic tag num w = spellRaw w := by
    intro mnemonic tag num htag
    rw [eq_of_beq htag]
    rfl
  rw [disassemble]
  cases hd : decodeCommand w with
  | error e => rfl
  | ok i =>
    have hwf : i.wellFormed = false := by
      rw [reservedFault_of_decodeCommand_ok hd] at h
      split at h
      · assumption
      · cases h
    cases i with
    | parameter num => rfl
    | session num => rfl
    | handle num => rfl
    | dec din => cases hwf
    | enc tag num => exact hvalue _ _ _ ((Bool.not_eq_false' ..).mp hwf)
    | rnd tag num => exact hvalue _ _ _ ((Bool.not_eq_false' ..).mp hwf)
    | chkb din => cases hwf
    | chkv tag num => exact hvalue _ _ _ ((Bool.not_eq_false' ..).mp hwf)

theorem exists_tagOf_of_not_reserved {tag : Tag} (h : tagIsReserved tag = false) : ∃ v, tag = tagOf v := by
  rcases variantOf_cases tag with ⟨rfl, -⟩ | ⟨v, hv, -⟩
  · cases h
  · exact ⟨v, hv⟩

theorem byteOperand_hex2 (b : Byte) : byteOperand (hex2 b) = .ok b :=
  byteOperand_of_literalValue (literalValue_hex2 b)

theorem assembleLine_spellByteCommand {mnemonic : String} {op : OpCode} (hm : isWord (ascii mnemonic) = true)
    (hasm : ∀ operands, assembleTokens (.word (ascii mnemonic) :: operands) =
      (assembleByteCommand op operands).map some) (din : Byte) :
    assembleLine (spellByteCommand mnemonic din) = .ok (some (assembleFields op 0#2 0#8 din)) :=
  assembleLine_byteCommand hm hasm (isWord_hex2 din) (byteOperand_hex2 din)

theorem assembleLine_spellValueCommand {mnemonic : String} {op : OpCode} (hm : isWord (ascii mnemonic) = true)
    (hasm : ∀ operands, assembleTokens (.word (ascii mnemonic) :: operands) =
      (assembleValueCommand op operands).map some) {tag : Tag} (htag : tagIsReserved tag = false) (num : Byte)
    (w : CmdWord) :
    assembleLine (spellValueCommand mnemonic tag num w) = .ok (some (assembleFields op tag num 0#8)) := by
  obtain ⟨v, rfl⟩ := exists_tagOf_of_not_reserved htag
  rw [spellValueCommand, variantOf_tagOf]
  exact assembleLine_valueCommand hm hasm v (isWord_hex2 num) (byteOperand_hex2 num)

/-- The disassembled text of a word that is not reserved assembles to the word of its instruction. -/
theorem assembleLine_disassemble {w : CmdWord} {i : Instr} (hd : decodeCommand w = .ok i) (hwf : i.wellFormed = true) :
    ∃ w', encode i = .word w' ∧ assembleLine (disassemble w) = .ok (some w') := by
  rcases decodeCommand_cases w with
    ⟨-, hi⟩ | ⟨-, ⟨-, hi⟩ | ⟨-, hi⟩ | ⟨-, hi⟩ | ⟨-, hi⟩ | ⟨-, hi⟩ | ⟨-, hi⟩⟩ <;>
    rw [hi] at hd <;> cases hd <;> rw [disassemble, hi]
  · exact ⟨_, rfl, assembleLine_spellByteCommand rfl assembleTokens_dec _⟩
  · exact ⟨_, rfl, assembleLine_spellValueCommand rfl assembleTokens_enc ((Bool.not_eq_true' _).mp hwf) _ w⟩
  · exact ⟨_, rfl, assembleLine_spellValueCommand rfl assembleTokens_rnd ((Bool.not_eq_true' _).mp hwf) _ w⟩
  · exact ⟨_, rfl, assembleLine_spellByteCommand rfl assembleTokens_chkb _⟩
  · exact ⟨_, rfl, assembleLine_spellValueCommand rfl assembleTokens_chkv ((Bool.not_eq_true' _).mp hwf) _ w⟩

/-! #### What an accepted line assembles to -/

theorem exists_of_map_eq_ok {α β : Type} {f : α → β} {x : Except AsmError α} {b : β} (h : x.map f = .ok b) :
    ∃ a, x = .ok a ∧ f a = b := by
  cases x with
  | error e => cases h
  | ok a => exact ⟨a, rfl, Except.ok.inj h⟩

theorem exists_din_of_assembleByteCommand {op : OpCode} {operands : List Token} {w : CmdWord}
    (h : assembleByteCommand op operands = .ok w) : ∃ din, w = assembleFields op 0#2 0#8 din := by
  unfold assembleByteCommand at h
  split at h
  · obtain ⟨din, -, hw⟩ := exists_of_map_eq_ok h
    exact ⟨din, hw.symm⟩
  · cases h

theorem exists_value_of_assembleValueCommand {op : OpCode} {operands : List Token} {w : CmdWord}
    (h : assembleValueCommand op operands = .ok w) : ∃ v num, w = assembleFields op (tagOf v) num 0#8 := by
  unfold assembleValueCommand at h
  split at h
  · split at h
    · cases h
    · next v _ =>
      obtain ⟨num, -, hw⟩ := exists_of_map_eq_ok h
      exact ⟨v, num, hw.symm⟩
  · cases h

theorem eq_ok_of_map_some {x : Except AsmError CmdWord} {w : CmdWord} (h : x.map some = .ok (some w)) : x = .ok w := by
  obtain ⟨w', hx, hw⟩ := exists_of_map_eq_ok h
  rw [hx, Option.some.inj hw]

theorem not_tagIsReserved_tagOf (v : Variant) : (!tagIsReserved (tagOf v)) = true := by
  rw [tagIsReserved_tagOf, Bool.not_false]

/-- Whatever line is accepted is a raw `.word`, or gives the word of a well-formed instruction. -/
theorem assembleTokens_eq_ok {ts : List Token} {w : CmdWord} (h : assembleTokens ts = .ok (some w)) :
    (∃ operands, ts = .word (ascii ".word") :: operands) ∨
    ∃ i : Instr, i.wellFormed = true ∧ encode i = .word w := by
  unfold assembleTokens at h
  split at h
  · cases h
  · cases h
  · next m operands =>
    split_ifs at h with hdec hchkb henc hrnd hchkv hraw
    · obtain ⟨din, rfl⟩ := exists_din_of_assembleByteCommand (eq_ok_of_map_some h)
      exact .inr ⟨.dec din, rfl, rfl⟩
    · obtain ⟨din, rfl⟩ := exists_din_of_assembleByteCommand (eq_ok_of_map_some h)
      exact .inr ⟨.chkb din, rfl, rfl⟩
    · obtain ⟨v, num, rfl⟩ := exists_value_of_assembleValueCommand (eq_ok_of_map_some h)
      exact .inr ⟨.enc (tagOf v) num, not_tagIsReserved_tagOf v, rfl⟩
    · obtain ⟨v, num, rfl⟩ := exists_value_of_assembleValueCommand (eq_ok_of_map_some h)
      exact .inr ⟨.rnd (tagOf v) num, not_tagIsReserved_tagOf v, rfl⟩
    · obtain ⟨v, num, rfl⟩ := exists_value_of_assembleValueCommand (eq_ok_of_map_some h)
      exact .inr ⟨.chkv (tagOf v) num, not_tagIsReserved_tagOf v, rfl⟩
    · exact .inl ⟨operands, by rw [hraw]⟩

/-! #### An assembled word as a number (R63) -/

theorem toNat_cmdNUM (w : CmdWord) : (cmdNUM w).toNat = w.toNat / 2 ^ 8 % 2 ^ 8 := by
  rw [cmdNUM, BitVec.extractLsb'_toNat, Nat.shiftRight_eq_div_pow]

theorem toNat_cmdDIN (w : CmdWord) : (cmdDIN w).toNat = w.toNat % 2 ^ 8 := by
  rw [cmdDIN, BitVec.extractLsb'_toNat, Nat.shiftRight_zero]

theorem assembleFields_eq_ofNat (op : OpCode) (tag : Tag) (num din : Byte) :
    assembleFields op tag num din =
      BitVec.ofNat 24 (op.toNat * 2 ^ 18 + tag.toNat * 2 ^ 16 + num.toNat * 2 ^ 8 + din.toNat) := by
  have hrsv := toNat_cmdRSV (assembleFields op tag num din)
  have hop := toNat_cmdOP (assembleFields op tag num din)
  have htag := toNat_cmdTAG (assembleFields op tag num din)
  have hnum := toNat_cmdNUM (assembleFields op tag num din)
  have hdin := toNat_cmdDIN (assembleFields op tag num din)
  rw [cmdRSV_assembleFields, BitVec.toNat_ofNat] at hrsv
  rw [cmdOP_assembleFields] at hop
  rw [cmdTAG_assembleFields] at htag
  rw [cmdNUM_assembleFields] at hnum
  rw [cmdDIN_assembleFields] at hdin
  apply BitVec.eq_of_toNat_eq
  rw [BitVec.toNat_ofNat]
  omega

/-! #### Comments and line ends -/

theorem tokensFrom_comment (line comment acc : Text) (h : 0x3B#8 ∉ line) :
    tokensFrom acc (line ++ 0x3B#8 :: comment) = tokensFrom acc line := by
  induction line generalizing acc with
  | nil => rfl
  | cons b line ih =>
    obtain ⟨hb, hline⟩ := List.ne_and_not_mem_of_not_mem_cons h
    simp only [List.cons_append, tokensFrom, if_neg hb.symm, ih _ hline]

theorem linesFrom_noNewline (line acc : Text) (h : 0x0A#8 ∉ line) : linesFrom acc line = [acc ++ line] := by
  induction line generalizing acc with
  | nil => simp [linesFrom]
  | cons b line ih =>
    obtain ⟨hb, hline⟩ := List.ne_and_not_mem_of_not_mem_cons h
    simp [linesFrom, hb.symm, ih _ hline]

theorem linesFrom_newline (line rest acc : Text) (h : 0x0A#8 ∉ line) :
    linesFrom acc (line ++ 0x0A#8 :: rest) = (acc ++ line) :: linesFrom [] rest := by
  induction line generalizing acc with
  | nil => simp [linesFrom]
  | cons b line ih =>
    obtain ⟨hb, hline⟩ := List.ne_and_not_mem_of_not_mem_cons h
    simp [linesFrom, hb.symm, ih _ hline]

end Sys2Proof.Machine
end

/-! ### The statements of the family: the assembler -/

section
namespace Sys2Proof.Machine

/-- Settles O43: a reserved word goes through `.word`; any other through its instruction, whose word decodes alike. -/
theorem disassembledWordReassembles : Obligations.DisassembledWordReassembles := by
  intro w
  cases hfault : reservedFault w with
  | some code =>
    refine ⟨w, ?_, if_neg (Option.some_ne_none code) ▸ rfl, rfl⟩
    rw [disassemble_of_reservedFault hfault, assembleLine_spellRaw]
  | none =>
    cases hd : decodeCommand w with
    | error code =>
      rw [reservedFault_of_decodeCommand_error hd] at hfault
      cases hfault
    | ok i =>
      have hwf : i.wellFormed = true := by
        rw [reservedFault_of_decodeCommand_ok hd] at hfault
        simpa using hfault
      obtain ⟨w', hencode, hasm⟩ := assembleLine_disassemble hd hwf
      have hdecode : decodeInput (.word w') = decodeInput (.word w) := by
        rw [← hencode, encodedInstructionDecodesBack i]
        exact hd.symm
      refine ⟨w', hasm, ?_, answer_congr hdecode⟩
      rw [if_pos rfl, ← hencode, encode_of_decodeCommand hd]

/-- Settles O44: each spelling is one word of the line and a literal of the byte's value. -/
theorem literalSpellingsAssembleAlike : Obligations.LiteralSpellingsAssembleAlike := by
  intro b spelling hspelling
  have hword : isWord spelling = true := by
    rcases hspelling with rfl | rfl | rfl
    · exact isWord_decimal b
    · exact isWord_hex2 b
    · exact isWord_binary b
  have hliteral : literalValue spelling = some b.toNat := by
    rcases hspelling with rfl | rfl | rfl
    · exact literalValue_decimal b
    · exact literalValue_hex2 b
    · exact literalValue_binary b
  have hbyte := byteOperand_of_literalValue hliteral
  refine ⟨?_, ?_, ?_, ?_, ?_⟩
  · refine (assembleLine_byteCommand (m := ascii "DEC") rfl assembleTokens_dec hword hbyte).trans ?_
    simp [assembleFields_eq_ofNat, opDEC]
  · refine (assembleLine_byteCommand (m := ascii "CHKB") rfl assembleTokens_chkb hword hbyte).trans ?_
    simp [assembleFields_eq_ofNat, opCHKB]
  · refine (assembleLine_valueCommand (m := ascii "ENC") rfl assembleTokens_enc .parameter hword hbyte).trans ?_
    simp [assembleFields_eq_ofNat, opENC, tagOf]
  · refine (assembleLine_valueCommand (m := ascii "RND") rfl assembleTokens_rnd .session hword hbyte).trans ?_
    simp [assembleFields_eq_ofNat, opRND, tagOf]
  · refine (assembleLine_valueCommand (m := ascii "CHKV") rfl assembleTokens_chkv .handle hword hbyte).trans ?_
    simp [assembleFields_eq_ofNat, opCHKV, tagOf]

/-- Settles O45: an accepted line that is no raw `.word` gives the word of a well-formed instruction. -/
theorem assembledCommandsAreNotReserved : Obligations.AssembledCommandsAreNotReserved := by
  intro line w h
  rcases assembleTokens_eq_ok h with hraw | ⟨i, hwf, hencode⟩
  · exact .inl hraw
  · have hd : decodeCommand w = .ok i := by
      have := encodedInstructionDecodesBack i
      rwa [hencode] at this
    refine .inr ⟨?_, ?_⟩
    · rw [reservedFault_of_decodeCommand_ok hd, hwf]
      rfl
    · rw [← encode_of_decodeCommand hd, hencode]

/-- Settles O46: the mnemonic is looked at first, then the variant letter, then the literal. -/
theorem assemblerRefusesWhatTheSyntaxLacks : Obligations.AssemblerRefusesWhatTheSyntaxLacks := by
  refine ⟨fun m t n hm ht hn => ?_, fun m t v n hm ht hn => ?_, fun m t u hm hp hs hh => ?_,
    fun m operands hdec hchkb henc hrnd hchkv hraw => ?_⟩
  · have hbyte := byteOperand_tooLarge ht hn
    rcases hm with rfl | rfl
    · rw [assembleTokens_dec, assembleByteCommand_word, hbyte]
      rfl
    · rw [assembleTokens_chkb, assembleByteCommand_word, hbyte]
      rfl
  · have hbyte := byteOperand_tooLarge ht hn
    rcases hm with rfl | rfl | rfl
    · rw [assembleTokens_enc, assembleValueCommand_letter, hbyte]
      rfl
    · rw [assembleTokens_rnd, assembleValueCommand_letter, hbyte]
      rfl
    · rw [assembleTokens_chkv, assembleValueCommand_letter, hbyte]
      rfl
  · have hvariant : variantOperand u = .error .unknownVariant := by
      rw [variantOperand, variantLetter, if_neg hp, variantLetter, if_neg hs, variantLetter, if_neg hh]
    have hcommand : ∀ op, assembleValueCommand op [.word u, .comma, .word t] = .error .unknownVariant := by
      intro op
      rw [assembleValueCommand, hvariant]
    rcases hm with rfl | rfl | rfl
    · rw [assembleTokens_enc, hcommand]
      rfl
    · rw [assembleTokens_rnd, hcommand]
      rfl
    · rw [assembleTokens_chkv, hcommand]
      rfl
  · rw [assembleTokens, if_neg hdec, if_neg hchkb, if_neg henc, if_neg hrnd, if_neg hchkv, if_neg hraw]

/-- Settles O47: what follows a semicolon gives no token, and a newline ends the first line. -/
theorem sourceIsOneCommandPerLineWithComments : Obligations.SourceIsOneCommandPerLineWithComments := by
  refine ⟨fun line comment h => ?_, fun line rest h => ?_, fun line h => ?_⟩
  · rw [assembleLine, tokens, tokensFrom_comment line comment [] h, assembleLine, tokens]
  · rw [assembleSource, linesFrom_newline line rest [] h, List.nil_append, assembleLines]
    cases assembleLine line with
    | error e => rfl
    | ok word => cases word <;> rfl
  · rw [assembleSource, linesFrom_noNewline line [] h, List.nil_append, assembleLines]
    cases assembleLine line with
    | error e => rfl
    | ok word => cases word <;> rfl

end Sys2Proof.Machine
end
